-- ==== Sys2Proof/Word.lean ====
section
/-! DEFINITION. The word types of the pd_modulation modulator core (spec/00_scope.md R11, R12). -/

namespace Sys2Proof

/-- A 32-bit word of a frame, a result or an oscillator port (R91, R100, R68); bit 0 is the least
significant (R11). As a FLOAT it is an IEEE 754 binary32 pattern (R97). -/
abbrev Word := BitVec 32

/-- The 8-bit operand `arg8`: the symbol of `BVAL`, `BSMP` or the byte of `SYM` (R91, R96). -/
abbrev Byte := BitVec 8

end Sys2Proof
end

