-- ==== Sys2Proof/Syntax.lean ====
section
/-! DEFINITION. Command frames and the thirteen commands of spec/30_encoding.md R94
(spec/opcode_table.json), their mnemonics, and the pseudo-instruction `SYM8` (R108). -/

namespace Sys2Proof

/-- The content of `am.type` (R22, R23). The 2-bit codes are `AnalogType.code` (R95). -/
inductive AnalogType where
  | am
  | fm
  | pm
  /-- Code 3, the unrecognised type: a legal content (R23, R95). -/
  | u3
  deriving DecidableEq, Repr

/-- The content of `bm.type` (R29, R30). The 2-bit codes are `BinaryType.code` (R95). -/
inductive BinaryType where
  | ask
  | fsk
  | psk
  /-- Code 3, the unrecognised type: a legal content (R30, R95). -/
  | u3
  deriving DecidableEq, Repr

/-- The 2-bit code the register `am.type` holds (R95). -/
def AnalogType.code : AnalogType → BitVec 2
  | .am => 0#2
  | .fm => 1#2
  | .pm => 2#2
  | .u3 => 3#2

/-- The 2-bit code the register `bm.type` holds (R95). -/
def BinaryType.code : BinaryType → BitVec 2
  | .ask => 0#2
  | .fsk => 1#2
  | .psk => 2#2
  | .u3 => 3#2

/-- A command frame: four 32-bit words presented together (R91). -/
structure Frame where
  w0 : Word
  w1 : Word
  w2 : Word
  w3 : Word
  deriving DecidableEq, Repr

/-- The commands of R94, one constructor per row of spec/opcode_table.json. The operands are whole
fields of the frame (R96): `a`, `f`, `k`, `m` FLOATs, `osc` the oscillator-supplied flag, `sy` the
symbol, `b` the byte. -/
inductive Instr where
  /-- `AINIT.AM a, f, k, osc` (R161, R162). -/
  | ainitAm (a f k : Word) (osc : Bool)
  /-- `AINIT.FM a, f, k, osc` (R161, R163). -/
  | ainitFm (a f k : Word) (osc : Bool)
  /-- `AINIT.PM a, f, k, osc` (R161, R164). -/
  | ainitPm (a f k : Word) (osc : Bool)
  /-- `AINIT.U3 a, f, k, osc` (R161, R165). -/
  | ainitU3 (a f k : Word) (osc : Bool)
  /-- `AVAL m` (R166). -/
  | aval (m : Word)
  /-- `ASMP m` (R171). -/
  | asmp (m : Word)
  /-- `BINIT.ASK a, f, k, osc` (R201, R202). -/
  | binitAsk (a f k : Word) (osc : Bool)
  /-- `BINIT.FSK a, f, k, osc` (R201, R203). -/
  | binitFsk (a f k : Word) (osc : Bool)
  /-- `BINIT.PSK a, f, k, osc` (R201, R204). -/
  | binitPsk (a f k : Word) (osc : Bool)
  /-- `BINIT.U3 a, f, k, osc` (R201, R205). -/
  | binitU3 (a f k : Word) (osc : Bool)
  /-- `BVAL s` (R206). -/
  | bval (sy : Byte)
  /-- `BSMP s` (R215). -/
  | bsmp (sy : Byte)
  /-- `SYM b` (R241). -/
  | sym (b : Byte)
  deriving DecidableEq, Repr

/-- The mnemonic of a command (R94). -/
def Instr.mnemonic : Instr → String
  | .ainitAm _ _ _ _ => "AINIT.AM"
  | .ainitFm _ _ _ _ => "AINIT.FM"
  | .ainitPm _ _ _ _ => "AINIT.PM"
  | .ainitU3 _ _ _ _ => "AINIT.U3"
  | .aval _ => "AVAL"
  | .asmp _ => "ASMP"
  | .binitAsk _ _ _ _ => "BINIT.ASK"
  | .binitFsk _ _ _ _ => "BINIT.FSK"
  | .binitPsk _ _ _ _ => "BINIT.PSK"
  | .binitU3 _ _ _ _ => "BINIT.U3"
  | .bval _ => "BVAL"
  | .bsmp _ => "BSMP"
  | .sym _ => "SYM"

/-- `SYM8 b`, the one pseudo-instruction: eight consecutive `SYM b` (R108, R246). -/
def sym8 (b : Byte) : List Instr :=
  List.replicate 8 (.sym b)

end Sys2Proof
end

