-- ==== Sys2Proof/WellFormed.lean ====
section
/-! DEFINITION. Which command frames are reserved: the six conditions of spec/30_encoding.md R103.

Every TERM of `Instr` is well formed: its fields have exactly the widths of the frame's fields (R96),
so there is no check to fail on the side of the syntax (log entry 17). What can be ill formed is a
FRAME. These checks are R103's own list, written beside the decoder of R92 and not used by it. -/

namespace Sys2Proof

/-- Field `rsv1` of R91. -/
def Frame.rsv1 (fr : Frame) : BitVec 8 := fr.w0.extractLsb' 24 8

/-- Field `arg8` of R91. -/
def Frame.arg8 (fr : Frame) : Byte := fr.w0.extractLsb' 16 8

/-- Field `rsv0` of R91. -/
def Frame.rsv0 (fr : Frame) : BitVec 7 := fr.w0.extractLsb' 9 7

/-- Field `osc` of R91: bit 8. -/
def Frame.osc (fr : Frame) : Bool := fr.w0.getLsbD 8

/-- Field `z` of R93: `cmd[7:6]`. -/
def Frame.z (fr : Frame) : BitVec 2 := fr.w0.extractLsb' 6 2

/-- Field `unit` of R93: `cmd[5:4]`. -/
def Frame.unit (fr : Frame) : BitVec 2 := fr.w0.extractLsb' 4 2

/-- Field `op` of R93: `cmd[3:2]`. -/
def Frame.op (fr : Frame) : BitVec 2 := fr.w0.extractLsb' 2 2

/-- Field `ty` of R93: `cmd[1:0]`. -/
def Frame.ty (fr : Frame) : BitVec 2 := fr.w0.extractLsb' 0 2

/-- R103 item 1: a reserved field of the control word is not 0. -/
def Frame.reservedField (fr : Frame) : Bool := fr.rsv1 != 0#8 || fr.rsv0 != 0#7

/-- R103 item 2: `cmd[7:6]` is not 0. -/
def Frame.reservedZ (fr : Frame) : Bool := fr.z != 0#2

/-- R103 item 3: unit 3. -/
def Frame.reservedUnit (fr : Frame) : Bool := fr.unit == 3#2

/-- R103 item 4: op 0. -/
def Frame.reservedOp (fr : Frame) : Bool := fr.op == 0#2

/-- R103 item 5: the SymbolExtractor has op 2 only. -/
def Frame.reservedSymOp (fr : Frame) : Bool := fr.unit == 2#2 && fr.op != 2#2

/-- R103 item 6: a non-zero `ty` outside INIT. -/
def Frame.reservedTy (fr : Frame) : Bool :=
  (fr.op == 2#2 || fr.op == 3#2 || fr.unit == 2#2) && fr.ty != 0#2

/-- A frame is well formed when none of R103's six conditions holds. -/
def Frame.wellFormed (fr : Frame) : Bool :=
  !fr.reservedField && !fr.reservedZ && !fr.reservedUnit && !fr.reservedOp && !fr.reservedSymOp &&
    !fr.reservedTy

end Sys2Proof
end

