-- ==== Sys2Proof/Decode.lean ====
section
/-! DEFINITION. Decoding and encoding of command frames (spec/30_encoding.md R91 to R97), the opcode
map as match and mask (R94), and the listing line of an assembled command (R107). -/

namespace Sys2Proof

/-- What the decoder answers: exactly one command with its operands, or the verdict
`ReservedCommand` (R92). -/
inductive Decoded where
  | command (i : Instr)
  | reservedCommand
  deriving DecidableEq, Repr

/-- The case on `(unit, op)` and `ty` of R92, on the codes of R93 and R95 as numbers. -/
def decodeFields (unit op ty : Nat) (fr : Frame) : Decoded :=
  match unit, op, ty with
  | 0, 1, 0 => .command (.ainitAm fr.w1 fr.w2 fr.w3 fr.osc)
  | 0, 1, 1 => .command (.ainitFm fr.w1 fr.w2 fr.w3 fr.osc)
  | 0, 1, 2 => .command (.ainitPm fr.w1 fr.w2 fr.w3 fr.osc)
  | 0, 1, 3 => .command (.ainitU3 fr.w1 fr.w2 fr.w3 fr.osc)
  | 0, 2, 0 => .command (.aval fr.w1)
  | 0, 3, 0 => .command (.asmp fr.w1)
  | 1, 1, 0 => .command (.binitAsk fr.w1 fr.w2 fr.w3 fr.osc)
  | 1, 1, 1 => .command (.binitFsk fr.w1 fr.w2 fr.w3 fr.osc)
  | 1, 1, 2 => .command (.binitPsk fr.w1 fr.w2 fr.w3 fr.osc)
  | 1, 1, 3 => .command (.binitU3 fr.w1 fr.w2 fr.w3 fr.osc)
  | 1, 2, 0 => .command (.bval fr.arg8)
  | 1, 3, 0 => .command (.bsmp fr.arg8)
  | 2, 2, 0 => .command (.sym fr.arg8)
  | _, _, _ => .reservedCommand

/-- The decoder (R92). It is total and reads no state. -/
def decode (fr : Frame) : Decoded :=
  if fr.rsv1 ≠ 0#8 ∨ fr.rsv0 ≠ 0#7 then .reservedCommand
  else if fr.z ≠ 0#2 then .reservedCommand
  else decodeFields fr.unit.toNat fr.op.toNat fr.ty.toNat fr

/-- A frame put together from its fields, the reserved ones 0 (R91). -/
def makeFrame (arg8 : Byte) (osc : Bool) (cmd : Byte) (w1 w2 w3 : Word) : Frame :=
  ⟨0#8 ++ arg8 ++ 0#7 ++ BitVec.ofBool osc ++ cmd, w1, w2, w3⟩

/-- The encoder: command codes of R94, operand fields of R91; every unused field is 0 (R107). -/
def encode : Instr → Frame
  | .ainitAm a f k osc => makeFrame 0#8 osc 0x04#8 a f k
  | .ainitFm a f k osc => makeFrame 0#8 osc 0x05#8 a f k
  | .ainitPm a f k osc => makeFrame 0#8 osc 0x06#8 a f k
  | .ainitU3 a f k osc => makeFrame 0#8 osc 0x07#8 a f k
  | .aval m => makeFrame 0#8 false 0x08#8 m 0#32 0#32
  | .asmp m => makeFrame 0#8 false 0x0C#8 m 0#32 0#32
  | .binitAsk a f k osc => makeFrame 0#8 osc 0x14#8 a f k
  | .binitFsk a f k osc => makeFrame 0#8 osc 0x15#8 a f k
  | .binitPsk a f k osc => makeFrame 0#8 osc 0x16#8 a f k
  | .binitU3 a f k osc => makeFrame 0#8 osc 0x17#8 a f k
  | .bval sy => makeFrame sy false 0x18#8 0#32 0#32 0#32
  | .bsmp sy => makeFrame sy false 0x1C#8 0#32 0#32 0#32
  | .sym b => makeFrame b false 0x28#8 0#32 0#32 0#32

/-- One row of the opcode map: a frame selects it when `W0 & mask = pattern` (R94). -/
structure OpcodeRow where
  mnemonic : String
  mask : Word
  pattern : Word
  deriving DecidableEq, Repr

/-- The opcode map as match and mask on `W0` (R94, spec/opcode_table.json). -/
def opcodeTable : List OpcodeRow :=
  [⟨"AINIT.AM", 0xFF00FEFF#32, 0x04#32⟩, ⟨"AINIT.FM", 0xFF00FEFF#32, 0x05#32⟩,
   ⟨"AINIT.PM", 0xFF00FEFF#32, 0x06#32⟩, ⟨"AINIT.U3", 0xFF00FEFF#32, 0x07#32⟩,
   ⟨"AVAL", 0xFF00FEFF#32, 0x08#32⟩, ⟨"ASMP", 0xFF00FEFF#32, 0x0C#32⟩,
   ⟨"BINIT.ASK", 0xFF00FEFF#32, 0x14#32⟩, ⟨"BINIT.FSK", 0xFF00FEFF#32, 0x15#32⟩,
   ⟨"BINIT.PSK", 0xFF00FEFF#32, 0x16#32⟩, ⟨"BINIT.U3", 0xFF00FEFF#32, 0x17#32⟩,
   ⟨"BVAL", 0xFF00FEFF#32, 0x18#32⟩, ⟨"BSMP", 0xFF00FEFF#32, 0x1C#32⟩,
   ⟨"SYM", 0xFF00FEFF#32, 0x28#32⟩]

/-- The frame `fr` selects the row (R94). -/
def OpcodeRow.selects (row : OpcodeRow) (fr : Frame) : Bool :=
  fr.w0 &&& row.mask == row.pattern

/-- The frame whose 128 bits are `w`, bit 0 being bit 0 of `W0` and `W1`, `W2`, `W3` counting on from
it. The spec gives the frame four words and no byte order (R74, R91; log entry 16). -/
def frameOfBits (w : Nat) : Frame :=
  ⟨BitVec.ofNat 32 w, BitVec.ofNat 32 (w / 2 ^ 32), BitVec.ofNat 32 (w / 2 ^ 64),
   BitVec.ofNat 32 (w / 2 ^ 96)⟩

/-- The command the decoder reads from a frame whose lowest `nbits` bits are `w` and whose other bits
are 0. -/
def decodeTableWord (nbits w : Nat) : Option Instr :=
  match decode (frameOfBits (w % 2 ^ nbits)) with
  | .command i => some i
  | .reservedCommand => none

/-- The `n` lowest hexadecimal digits of `w`, the most significant first. -/
def hexDigits : Nat → Nat → List Char
  | 0, _ => []
  | n + 1, w => hexDigits n (w / 16) ++ [(Nat.digitChar (w % 16)).toUpper]

/-- A word in a listing: eight hexadecimal digits (R107). -/
def listingWord (w : Word) : List Char := hexDigits 8 w.toNat

/-- An unused word in a listing (R107). -/
def unusedWord : List Char := List.replicate 8 '-'

/-- A FLOAT operand in assembler text, by its bit pattern (R12, R107; log entry 19). -/
def floatText (w : Word) : List Char := "f32:0x".toList ++ listingWord w

/-- An 8-bit operand in assembler text, in the `0x` form (R107). -/
def byteText (b : Byte) : List Char := "0x".toList ++ hexDigits 2 b.toNat

/-- The operands `a, f, k, osc` of an INIT in assembler text (R107). -/
def initText (a f k : Word) (osc : Bool) : List Char :=
  floatText a ++ ", ".toList ++ floatText f ++ ", ".toList ++ floatText k ++ ", ".toList ++
    [if osc then '1' else '0']

/-- The operands of a command in assembler text, in the order of R107. -/
def operandText : Instr → List Char
  | .ainitAm a f k osc => initText a f k osc
  | .ainitFm a f k osc => initText a f k osc
  | .ainitPm a f k osc => initText a f k osc
  | .ainitU3 a f k osc => initText a f k osc
  | .aval m => floatText m
  | .asmp m => floatText m
  | .binitAsk a f k osc => initText a f k osc
  | .binitFsk a f k osc => initText a f k osc
  | .binitPsk a f k osc => initText a f k osc
  | .binitU3 a f k osc => initText a f k osc
  | .bval sy => byteText sy
  | .bsmp sy => byteText sy
  | .sym b => byteText b

/-- The words `W1`, `W2`, `W3` of a listing, an unused one as dashes (R91, R107). -/
def operandWords : Instr → List (List Char)
  | .ainitAm a f k _ => [listingWord a, listingWord f, listingWord k]
  | .ainitFm a f k _ => [listingWord a, listingWord f, listingWord k]
  | .ainitPm a f k _ => [listingWord a, listingWord f, listingWord k]
  | .ainitU3 a f k _ => [listingWord a, listingWord f, listingWord k]
  | .aval m => [listingWord m, unusedWord, unusedWord]
  | .asmp m => [listingWord m, unusedWord, unusedWord]
  | .binitAsk a f k _ => [listingWord a, listingWord f, listingWord k]
  | .binitFsk a f k _ => [listingWord a, listingWord f, listingWord k]
  | .binitPsk a f k _ => [listingWord a, listingWord f, listingWord k]
  | .binitU3 a f k _ => [listingWord a, listingWord f, listingWord k]
  | .bval _ => [unusedWord, unusedWord, unusedWord]
  | .bsmp _ => [unusedWord, unusedWord, unusedWord]
  | .sym _ => [unusedWord, unusedWord, unusedWord]

/-- A listing line: `W0 W1 W2 W3  mnemonic operands` (R107). -/
def listingLine (i : Instr) : List Char :=
  List.intercalate [' '] (listingWord (encode i).w0 :: operandWords i) ++ [' ', ' '] ++
    i.mnemonic.toList ++ [' '] ++ operandText i

end Sys2Proof
end

