-- ==== Sys2Proof/Config.lean ====
section
/-! DEFINITION. What an implementation fixes and what the spec leaves free: the parameters of
spec/00_scope.md R8, the record of arithmetic functions of spec/40_shared_numerics.md R131, and the
free values (the answer of `OscGet`, R66; which NaN an invalid operation gives, R131 and U9). -/

namespace Sys2Proof

/-- The two oscillator ports (R62): `OSCA` of the AnalogModulator, `OSCB` of the BinaryModulator. -/
inductive OscPort where
  | a
  | b
  deriving DecidableEq, Repr

/-- The four arithmetic functions of R131 that can give a NaN. -/
inductive FloatOp where
  | add
  | sub
  | mul
  | div
  deriving DecidableEq, Repr

/-- The type of the `Numerics` record of R131, "one record, so that a model can take the record as a
configuration field" (R130). The machine's record is `Sys2Proof.Machine.numerics`. -/
structure Numerics where
  fadd : Word → Word → Word
  fsub : Word → Word → Word
  fmul : Word → Word → Word
  fdiv : Word → Word → Word
  fneg : Word → Word
  fabs : Word → Word
  /-- Domain: finite and not negative (R131). -/
  fmod1 : Word → Word
  fgt : Word → Word → Bool
  flt : Word → Word → Bool
  isfinite : Word → Bool
  /-- Domain: finite (R131). -/
  ftrunc : Word → Int

/-- The parameters of R8, fixed for the life of a run (R43, R81). -/
structure Params where
  /-- `VPP`, codec peak-to-peak voltage, volts. -/
  vpp : Word
  /-- `FS`, codec sample rate, hertz. -/
  fs : Word
  /-- `MV_RES`, the divisor of `GetSample`. -/
  mvRes : Word
  /-- `PI`, read by no rule. -/
  pi : Word
  /-- `PI_2`, the PSK limit. -/
  pi2 : Word
  /-- `PI_4`, the PM limit. -/
  pi4 : Word
  /-- `SAMPLE_BITS`, the width of the channel sample. -/
  sampleBits : Nat
  deriving DecidableEq, Repr

/-- A binary32 pattern that is finite and above zero: its sign is 0, its magnitude bits are neither 0
nor those of an infinity or a NaN (R97). -/
def Config.positiveFinite (w : Word) : Bool :=
  decide (0 < w.toNat) && decide (w.toNat < 0x7F800000)

/-- A binary32 pattern that is finite and not a zero (R97). -/
def Config.nonzeroFinite (w : Word) : Bool :=
  Config.positiveFinite (w &&& 0x7FFFFFFF#32)

/-- `ParamsValid` of R274: the constraints of R8. `PI` has none. -/
def Params.valid (p : Params) : Bool :=
  Config.positiveFinite p.vpp && Config.positiveFinite p.fs && Config.nonzeroFinite p.mvRes &&
    Config.positiveFinite p.pi2 && Config.positiveFinite p.pi4 &&
    decide (2 ≤ p.sampleBits) && decide (p.sampleBits ≤ 32)

/-- The default of `PI` (R8). -/
def Config.piDefault : Word := 0x40490FDB#32

/-- The default of `PI_2` (R8). -/
def Config.pi2Default : Word := 0x3FC90FDB#32

/-- The default of `PI_4` (R8). -/
def Config.pi4Default : Word := 0x3F490FDB#32

/-- The default of `SAMPLE_BITS` (R8). -/
def Config.sampleBitsDefault : Nat := 16

/-! The OPEN parameters of R8 as an implementation supplies them: constants without a body. DESIGN
CHOICE (log entry 5): a value outside R8's constraint is replaced by a value inside it, so that the
constants range over exactly the values R8 admits. -/

opaque Config.freeVpp : Word
opaque Config.freeFs : Word
opaque Config.freeMvRes : Word
opaque Config.freePi : Word
opaque Config.freePi2 : Word
opaque Config.freePi4 : Word
opaque Config.freeSampleBits : Nat

/-- `w` if it is positive and finite, else 1.0 (log entry 5). -/
def Config.legalPositive (w : Word) : Word :=
  if Config.positiveFinite w then w else 0x3F800000#32

/-- `w` if it is finite and not zero, else 1.0 (log entry 5). -/
def Config.legalNonzero (w : Word) : Word :=
  if Config.nonzeroFinite w then w else 0x3F800000#32

/-- The parameters the machine is built with (R8), at any value R8 admits (log entry 5). -/
def Config.params : Params where
  vpp := Config.legalPositive Config.freeVpp
  fs := Config.legalPositive Config.freeFs
  mvRes := Config.legalNonzero Config.freeMvRes
  pi := Config.freePi
  pi2 := Config.legalPositive Config.freePi2
  pi4 := Config.legalPositive Config.freePi4
  sampleBits := 2 + Config.freeSampleBits % 31

/-- FREE VALUE (R17, R66, U12; log entry 3): the answer of the `n`-th `OscGet` where the environment
fixed none, on a port: any of the 2^32 patterns. -/
opaque Config.freeSample : OscPort → Nat → Word

/-- FREE VALUE (R131, U9; log entry 7): which NaN an arithmetic function gives on given operands. Only
its sign and fraction are used, see `Sys2Proof.Machine.nanOf`. -/
opaque Config.freeNaN : FloatOp → Word → Word → Word

end Sys2Proof
end

