-- ==== Sys2Proof/Machine/Numerics.lean ====
section
/-! DEFINITION. FLOAT arithmetic: IEEE 754 binary32, round to nearest with ties to even, subnormals
kept (spec/30_encoding.md R97, spec/40_shared_numerics.md R130 to R133, R151), as the default record
of R131, and the FLOAT constants of R132.

A finite FLOAT is an integer number of units of 2^-149, the least positive subnormal (R97). Each
arithmetic function computes its exact result as a rational number of these units and rounds once
(R15). No status is kept (R133). -/

namespace Sys2Proof.Machine

/-- The sign bit (R97). -/
def signBit (x : Word) : Bool := x.getLsbD 31

/-- The biased exponent field, bits 30:23 (R97). -/
def expField (x : Word) : Nat := x.toNat / 2 ^ 23 % 256

/-- The fraction field, bits 22:0 (R97). -/
def fracField (x : Word) : Nat := x.toNat % 2 ^ 23

/-- Exponent field 255 and a non-zero fraction (R97). -/
def isNaN (x : Word) : Bool := decide (expField x = 255) && decide (fracField x ≠ 0)

/-- Exponent field 255 and fraction 0 (R97). -/
def isInf (x : Word) : Bool := decide (expField x = 255) && decide (fracField x = 0)

/-- The magnitude of a finite FLOAT in units of 2^-149 (R97). For an infinity the same formula gives
2^277, above every finite magnitude, which is what comparisons need of it. -/
def mag (x : Word) : Nat :=
  if expField x = 0 then fracField x else (2 ^ 23 + fracField x) * 2 ^ (expField x - 1)

/-- The signed value in units of 2^-149 (R97); for an infinity a bound beyond all finite values. -/
def key (x : Word) : Int := if signBit x then -(mag x : Int) else (mag x : Int)

/-- The magnitude bits of an infinity (R97). -/
def infBits : Nat := 0x7F800000

/-- `n / d` rounded to the nearest integer, ties to even (R130). -/
def roundTiesEven (n d : Nat) : Nat :=
  if d < 2 * (n % d) ∨ (2 * (n % d) = d ∧ n / d % 2 = 1) then n / d + 1 else n / d

/-- The magnitude bits (30:0) of the FLOAT nearest to `n / d` units of 2^-149, ties to even: `e` is
the number of low bits that do not fit 24 significant bits, and a carry out of the significand
moves on into the exponent field by itself. Beyond the largest finite value the result is an
infinity (R131, R133). -/
def roundMag (n d : Nat) : Nat :=
  min ((Nat.log2 (n / d) - 23) * 2 ^ 23 + roundTiesEven n (d * 2 ^ (Nat.log2 (n / d) - 23))) infBits

/-- A FLOAT from its sign and its magnitude bits (R97). -/
def pack (neg : Bool) (m : Nat) : Word := BitVec.ofNat 32 ((if neg then 2 ^ 31 else 0) + m)

/-- The NaN an operation gives: any NaN pattern, as `Config.freeNaN` has it (R131, U9; log entry 7). Its
sign and fraction are the free word's; a zero fraction, which would not be a NaN, becomes 2^22. -/
def nanOf (op : FloatOp) (x y : Word) : Word :=
  pack (signBit (Config.freeNaN op x y))
    (infBits + (if fracField (Config.freeNaN op x y) = 0 then 2 ^ 22
      else fracField (Config.freeNaN op x y)))

/-- IEEE 754 addition (R131), `nan` being the NaN it gives. A sum of exactly zero is +0.0 unless both
operands are negative. -/
def addWith (nan x y : Word) : Word :=
  if isNaN x || isNaN y then nan
  else if isInf x then (if isInf y && (signBit x != signBit y) then nan else x)
  else if isInf y then y
  else if key x + key y = 0 then pack (signBit x && signBit y) 0
  else pack (decide (key x + key y < 0)) (roundMag (key x + key y).natAbs 1)

/-- Flips bit 31 and nothing else (R131). -/
def ieeeNeg (x : Word) : Word := x ^^^ 0x80000000#32

/-- Clears bit 31 and nothing else (R131). -/
def ieeeAbs (x : Word) : Word := x &&& 0x7FFFFFFF#32

/-- IEEE 754 addition (R131). -/
def ieeeAdd (x y : Word) : Word := addWith (nanOf .add x y) x y

/-- IEEE 754 subtraction (R131). -/
def ieeeSub (x y : Word) : Word := addWith (nanOf .sub x y) x (ieeeNeg y)

/-- IEEE 754 multiplication (R131). -/
def ieeeMul (x y : Word) : Word :=
  if isNaN x || isNaN y then nanOf .mul x y
  else if isInf x || isInf y then
    (if mag x = 0 ∨ mag y = 0 then nanOf .mul x y else pack (signBit x != signBit y) infBits)
  else pack (signBit x != signBit y) (roundMag (mag x * mag y) (2 ^ 149))

/-- IEEE 754 division (R131). -/
def ieeeDiv (x y : Word) : Word :=
  if isNaN x || isNaN y then nanOf .div x y
  else if isInf x then
    (if isInf y then nanOf .div x y else pack (signBit x != signBit y) infBits)
  else if isInf y then pack (signBit x != signBit y) 0
  else if mag y = 0 then
    (if mag x = 0 then nanOf .div x y else pack (signBit x != signBit y) infBits)
  else pack (signBit x != signBit y) (roundMag (mag x * 2 ^ 149) (mag y))

/-- The fractional part `x - floor(x)` of a finite `x` that is not negative (R131). DESIGN CHOICE (log
entry 15): at `-0.0`, which meets the domain since the two zeros compare equal and for which R131
gives no sign of the result, it answers `-0.0`; outside the domain it answers its operand. No rule
calls it on either: R162 takes `fabs` first. -/
def ieeeMod1 (x : Word) : Word :=
  if signBit x || expField x = 255 then x else pack false (roundMag (mag x % 2 ^ 149) 1)

/-- IEEE 754 `x > y` (R131). -/
def ieeeGt (x y : Word) : Bool := !isNaN x && !isNaN y && decide (key y < key x)

/-- IEEE 754 `x < y` (R131). -/
def ieeeLt (x y : Word) : Bool := !isNaN x && !isNaN y && decide (key x < key y)

/-- The exponent field is not 255 (R131). -/
def ieeeIsFinite (x : Word) : Bool := decide (expField x ≠ 255)

/-- The integer obtained by discarding the fractional part of a finite `x` (R131). Outside this
domain, where no rule calls it, it answers what its formula gives (log entry 15). -/
def ieeeTrunc (x : Word) : Int :=
  if signBit x then -((mag x / 2 ^ 149 : Nat) : Int) else ((mag x / 2 ^ 149 : Nat) : Int)

/-- The default record of R131. -/
def ieee754 : Numerics where
  fadd := ieeeAdd
  fsub := ieeeSub
  fmul := ieeeMul
  fdiv := ieeeDiv
  fneg := ieeeNeg
  fabs := ieeeAbs
  fmod1 := ieeeMod1
  fgt := ieeeGt
  flt := ieeeLt
  isfinite := ieeeIsFinite
  ftrunc := ieeeTrunc

/-- The machine's `Numerics` record (R8, R130): the default one (log entry 6). -/
def numerics : Numerics := ieee754

/-! The functions of the record under the names the rules use (R15). -/

def fadd (x y : Word) : Word := numerics.fadd x y
def fsub (x y : Word) : Word := numerics.fsub x y
def fmul (x y : Word) : Word := numerics.fmul x y
def fdiv (x y : Word) : Word := numerics.fdiv x y
def fneg (x : Word) : Word := numerics.fneg x
def fabs (x : Word) : Word := numerics.fabs x
def fmod1 (x : Word) : Word := numerics.fmod1 x
def fgt (x y : Word) : Bool := numerics.fgt x y
def flt (x y : Word) : Bool := numerics.flt x y
def isfinite (x : Word) : Bool := numerics.isfinite x
def ftrunc (x : Word) : Int := numerics.ftrunc x

/-! The FLOAT constants of R132. -/

def fZero : Word := 0x00000000#32
def fEighth : Word := 0x3E000000#32
def fQuarter : Word := 0x3E800000#32
def fHalf : Word := 0x3F000000#32
def fOne : Word := 0x3F800000#32
def fTwo : Word := 0x40000000#32
def fFour : Word := 0x40800000#32
def fEight : Word := 0x41000000#32

end Sys2Proof.Machine
end

