-- ==== Sys2Proof/Machine/State.lean ====
section
/-! DEFINITION. The machine's state: the registers of spec/10_state.md, the event trace and the results
(spec/00_scope.md R16, spec/60_exceptions.md R272), the parameters (R8) and the environment a step
reads (host moves still to be made, answers of the oscillators). All of it is plain data. -/

namespace Sys2Proof.Machine

/-- An oscillator event as the core emits it (R14, R63 to R66), tagged with its port (R16); `OscGet`
carries its answer, as R68 asks of a model's record. -/
inductive OscEvent where
  /-- `OscInit(p, wave, amp, freq, phase, offset)` (R63). -/
  | init (p : OscPort) (wave : BitVec 8) (amp freq phase offset : Word)
  /-- `OscSetFreq(p, hz)` (R64). -/
  | setFreq (p : OscPort) (hz : Word)
  /-- `OscSetPhase(p, rad)` (R65). -/
  | setPhase (p : OscPort) (rad : Word)
  /-- `OscGet(p)` and its answer (R66). -/
  | get (p : OscPort) (answer : Word)
  deriving DecidableEq, Repr

/-- What the host can do at a command boundary (R70, R81): issue a command frame, or reset (R300). -/
inductive HostMove where
  | command (fr : Frame)
  | reset
  deriving DecidableEq, Repr

/-- The registers `am.*` of the AnalogModulator (R22 to R28). -/
structure AnalogUnit where
  /-- `am.cfg` (R28). -/
  cfg : Bool
  /-- `am.type` (R23). -/
  ty : AnalogType
  /-- `am.A`, carrier amplitude after the clamp (R24). -/
  a : Word
  /-- `am.F`, carrier frequency after the clamp (R25). -/
  f : Word
  /-- `am.K`, modulation parameter (R26). -/
  k : Word
  /-- `am.osc_bound` (R27). -/
  oscBound : Bool
  deriving DecidableEq, Repr

/-- The registers `bm.*` of the BinaryModulator (R29 to R37). -/
structure BinaryUnit where
  /-- `bm.cfg` (R36). -/
  cfg : Bool
  /-- `bm.type` (R30). -/
  ty : BinaryType
  /-- `bm.A` (R31). -/
  a : Word
  /-- `bm.F` (R32). -/
  f : Word
  /-- `bm.K` (R33). -/
  k : Word
  /-- `bm.S`, shiftFrequency (R34). -/
  s : Word
  /-- `bm.osc_bound` (R35). -/
  oscBound : Bool
  /-- `bm.ssc`, symbolSampleCount: no operation reads or writes it (R37; log entry 9). -/
  ssc : Nat
  /-- `bm.msps`, maxSamplesPerSymbol: no operation reads or writes it (R37; log entry 9). -/
  msps : Nat
  deriving DecidableEq, Repr

/-- The register of the SymbolExtractor (R38). -/
structure SymbolUnit where
  /-- `sx.cursor`, 3 bits, unsigned (R38). -/
  cursor : BitVec 3
  deriving DecidableEq, Repr

/-- The state. `params` never changes (R8, R43); `inbox`, `oscA`, `oscB` and `draws` are the
environment, the model's own fields (log entries 1, 3 and 4). -/
structure State where
  /-- The parameters of R8. -/
  params : Params
  am : AnalogUnit
  bm : BinaryUnit
  sx : SymbolUnit
  /-- The event trace, oldest first (R16, R71). -/
  trace : List OscEvent
  /-- The results, oldest first: one entry per command that ended ok, `none` where `RES` is not
  driven (R100, R272; log entry 12). -/
  results : List (Option Word)
  /-- The host moves still to be made, the next first (R61, R70; log entry 1). -/
  inbox : List HostMove
  /-- Answers already fixed for the next `OscGet`s on `OSCA` (log entry 3). -/
  oscA : List Word
  /-- Answers already fixed for the next `OscGet`s on `OSCB` (log entry 3). -/
  oscB : List Word
  /-- How many answers were drawn so far, on either port (log entry 4). -/
  draws : Nat
  deriving DecidableEq, Repr

/-- The model's `Fault` verdicts (R262). Each changes no state, emits nothing and returns nothing
(R16), and ends the run as a good run. -/
inductive Fault where
  /-- Raised by `AVAL`, `ASMP`, `BVAL`, `BSMP` while the unit's `cfg` is 0 (R208). Safe: it errs
  toward unprovable (R262). -/
  | notConfigured
  /-- Raised by `AVAL`, `ASMP`, `BVAL`, `BSMP` with a recognised type while the unit's `osc_bound` is
  0 (R207). Safe: it errs toward unprovable (R262). -/
  | noOscillator
  deriving DecidableEq, Repr

/-- The model's `Refuse` verdicts (R262): the spec gives the input no meaning. Each changes no state,
emits nothing and returns nothing (R16). -/
inductive Refusal where
  /-- Raised by an arm of `exec` whose instruction has no meaning yet; no arm raises it. Safe. -/
  | notModelled (mnemonic : String)
  /-- Raised by the step on a reserved frame (R92, R103). Safe: it errs toward unprovable (R262). -/
  | reservedCommand
  /-- Raised by every INIT, and by `AVAL`, `ASMP` with a recognised type, on an operand that is a NaN
  or an infinity (R138). Safe: it errs toward unprovable (R262). -/
  | nonFiniteOperand
  /-- Raised by `BVAL`, `BSMP` with a recognised type on a symbol above 1 (R209). Safe: it errs toward
  unprovable (R262). -/
  | symbolOutOfDomain
  /-- Raised by `ASMP`, `BSMP` when the quotient is not finite or does not fit the sample type (R146,
  R147). Safe: it errs toward unprovable (R262). -/
  | quantizerRange
  deriving DecidableEq, Repr

/-- `am.*` after reset (R46). The spec gives `cfg` and `osc_bound`; the rest is DESIGN CHOICE (log
entry 8). -/
def AnalogUnit.reset : AnalogUnit where
  cfg := false
  ty := .am
  a := 0x00000000#32
  f := 0x00000000#32
  k := 0x00000000#32
  oscBound := false

/-- `bm.*` after reset (R46). The spec gives `cfg` and `osc_bound`; the rest is DESIGN CHOICE (log
entry 8). -/
def BinaryUnit.reset : BinaryUnit where
  cfg := false
  ty := .ask
  a := 0x00000000#32
  f := 0x00000000#32
  k := 0x00000000#32
  s := 0x00000000#32
  oscBound := false
  ssc := 0
  msps := 0

/-- `sx.cursor` after reset: 0 (R38, R46). -/
def SymbolUnit.reset : SymbolUnit where
  cursor := 0#3

/-- The state right after reset (R46), the start of a run (R272, R300): nothing emitted, nothing
returned. No host move is pending and no oscillator answer is fixed (DESIGN CHOICE, log entries 1, 3
and 4); the parameters are the implementation's (log entry 5). -/
def State.reset : State where
  params := Config.params
  am := AnalogUnit.reset
  bm := BinaryUnit.reset
  sx := SymbolUnit.reset
  trace := []
  results := []
  inbox := []
  oscA := []
  oscB := []
  draws := 0

end Sys2Proof.Machine
end

