-- ==== Sys2Proof/Machine/Ports.lean ====
section
/-! DEFINITION. The oscillator ports seen from outside: the wires of an event (spec/20_memory.md R68),
and what the events of a trace have told an oscillator (R63 to R65, R73). The core reads neither
back (spec/10_state.md R43): these are views of the trace. -/

namespace Sys2Proof.Machine

/-- The waveform code of SINE, the only one the core sends (R63, R68). -/
def sine : BitVec 8 := 0#8

/-- The port an event is on (R16). -/
def OscEvent.port : OscEvent → OscPort
  | .init p _ _ _ _ _ => p
  | .setFreq p _ => p
  | .setPhase p _ => p
  | .get p _ => p

/-- Is the event an `OscGet`? -/
def OscEvent.isGet : OscEvent → Bool
  | .init _ _ _ _ _ _ => false
  | .setFreq _ _ => false
  | .setPhase _ _ => false
  | .get _ _ => true

/-- The signals of a port during an event (R68). `none`: not driven, or not meaningful for the
kind. -/
structure PortWires where
  /-- `osc_kind`. -/
  kind : BitVec 2
  /-- `osc_wave`. -/
  wave : Option (BitVec 8)
  /-- `osc_arg0`. -/
  arg0 : Option Word
  /-- `osc_arg1`. -/
  arg1 : Option Word
  /-- `osc_arg2`. -/
  arg2 : Option Word
  /-- `osc_arg3`. -/
  arg3 : Option Word
  /-- `osc_smp`, an input: the answer to `OscGet`, ignored for the other kinds. -/
  smp : Option Word
  deriving DecidableEq, Repr

/-- The encoding of an event on its port's wires (R68). -/
def OscEvent.wires : OscEvent → PortWires
  | .init _ wave amp freq phase offset => ⟨0#2, some wave, some amp, some freq, some phase, some offset, none⟩
  | .setFreq _ hz => ⟨1#2, none, some hz, none, none, none, none⟩
  | .setPhase _ rad => ⟨2#2, none, some rad, none, none, none, none⟩
  | .get _ c => ⟨3#2, none, none, none, none, none, some c⟩

/-- The settings the core has given an oscillator. -/
structure OscSettings where
  wave : BitVec 8
  amp : Word
  freq : Word
  phase : Word
  offset : Word
  deriving DecidableEq, Repr

/-- What one event changes of the settings: `OscInit` gives all of them, `OscSetFreq` and `OscSetPhase`
replace one (R63 to R65, R73), `OscGet` none. Before an `OscInit` nothing is known. -/
def OscEvent.retell : OscEvent → Option OscSettings → Option OscSettings
  | .init _ wave amp freq phase offset, _ => some ⟨wave, amp, freq, phase, offset⟩
  | .setFreq _ hz, told => told.map fun o => { o with freq := hz }
  | .setPhase _ rad, told => told.map fun o => { o with phase := rad }
  | .get _ _, told => told

/-- What the events of a trace have told the oscillator on port `p`. -/
def oscTold (p : OscPort) (tr : List OscEvent) : Option OscSettings :=
  tr.foldl (fun told e => if e.port = p then e.retell told else told) none

end Sys2Proof.Machine
end

