-- ==== Sys2Proof/Machine/Ops.lean ====
section
/-! DEFINITION. The named operations over the state: emitting events, taking an oscillator sample,
returning a result, writing the units' registers, and the host's `Reset` (spec/70_reset_and_hazards.md
R300).

The core has no trap to enter and none to return from (spec/60_exceptions.md R260, R265), so there is
no operation that takes an exception. -/

namespace Sys2Proof.Machine

/-- Follow an outcome that goes on by `k`; a verdict ends the whole operation (R16, R148). -/
def andThen {α β : Type} (o : Host.Outcome α Fault Refusal) (k : α → Host.Outcome β Fault Refusal) :
    Host.Outcome β Fault Refusal :=
  match o with
  | .next x => k x
  | .fault r => .fault r
  | .refused r => .refused r

/-- Append events to the trace, in the order they are performed (R14, R71). -/
def State.emit (s : State) (es : List OscEvent) : State :=
  { s with trace := s.trace ++ es }

/-- End a command ok, with what `RES` carries (R16, R100). -/
def State.finish (s : State) (r : Option Word) : State :=
  { s with results := s.results ++ [r] }

/-- Write the registers `am.*`. -/
def State.setAm (s : State) (u : AnalogUnit) : State :=
  { s with am := u }

/-- Write the registers `bm.*`. -/
def State.setBm (s : State) (u : BinaryUnit) : State :=
  { s with bm := u }

/-- Write `sx.cursor`. -/
def State.setCursor (s : State) (c : BitVec 3) : State :=
  { s with sx := { cursor := c } }

/-- Take the host move at the head of the inbox away, leaving `rest`. -/
def State.setInbox (s : State) (rest : List HostMove) : State :=
  { s with inbox := rest }

/-- The answers already fixed for the next `OscGet`s on a port. -/
def State.script (s : State) : OscPort → List Word
  | .a => s.oscA
  | .b => s.oscB

/-- The answer the next `OscGet` on port `p` will give (R66): the one already fixed for it, else a free
value, any of the 2^32 patterns (R17; log entry 3). -/
def State.sample (s : State) (p : OscPort) : Word :=
  (s.script p).headD (Config.freeSample p s.draws)

/-- Perform `OscGet` on port `p` (R66): the event with its answer, and the answer is used up. -/
def State.takeSample (s : State) (p : OscPort) : State :=
  { s with
    trace := s.trace ++ [.get p (s.sample p)]
    oscA := match p with
      | .a => s.oscA.tail
      | .b => s.oscA
    oscB := match p with
      | .a => s.oscB
      | .b => s.oscB.tail
    draws := s.draws + 1 }

/-- The host's move `Reset` (R300, R301): the registers of R46; trace, results and the environment are
not the core's to reset, and no event is emitted. The registers R300 leaves with no value take the
values of log entry 8 (log entry 10). -/
def State.hostReset (s : State) : State :=
  { s with am := AnalogUnit.reset, bm := BinaryUnit.reset, sx := SymbolUnit.reset }

end Sys2Proof.Machine
end

