-- ==== Sys2Proof/Machine/Operands.lean ====
section
/-! DEFINITION. Operands: their admission (spec/40_shared_numerics.md R138, spec/42_binary_modulator.md
R209), their clamps (R139 to R144), and the quantiser of the result (R146, R147, R100). -/

namespace Sys2Proof.Machine

/-- Go on with `o` when the FLOAT operand is finite, else `Refuse(NonFiniteOperand)` (R138). -/
def admitFinite {α : Type} (x : Word) (o : Host.Outcome α Fault Refusal) :
    Host.Outcome α Fault Refusal :=
  if isfinite x then o else .refused .nonFiniteOperand

/-- Admission of the three FLOAT operands of an INIT (R138, R145). -/
def admitInit {α : Type} (a f k : Word) (o : Host.Outcome α Fault Refusal) :
    Host.Outcome α Fault Refusal :=
  if isfinite a && isfinite f && isfinite k then o else .refused .nonFiniteOperand

/-- Go on with `o` when the symbol is 0 or 1, else `Refuse(SymbolOutOfDomain)` (R209). -/
def admitSymbol {α : Type} (sy : Byte) (o : Host.Outcome α Fault Refusal) :
    Host.Outcome α Fault Refusal :=
  if sy.toNat ≤ 1 then o else .refused .symbolOutOfDomain

/-- `clamp_hi(x, hi)` (R139). -/
def clampHi (x hi : Word) : Word := if fgt x hi then hi else x

/-- `clamp_range(x, lo, hi)` (R139). -/
def clampRange (x lo hi : Word) : Word :=
  if flt x lo then lo else if fgt x hi then hi else x

/-- `A_MAX` (R140). -/
def aMax (p : Params) : Word := fdiv p.vpp fTwo

/-- `F_MAX` (R141). -/
def fMax (p : Params) : Word := fdiv p.fs fFour

/-- The amplitude an INIT stores (R140). -/
def clampAmplitude (p : Params) (a : Word) : Word := clampHi a (aMax p)

/-- The frequency an INIT stores (R141). -/
def clampFrequency (p : Params) (f : Word) : Word := clampHi f (fMax p)

/-- The least sample of the channel-sample type (R146). -/
def sampleMin (p : Params) : Int := -((2 ^ (p.sampleBits - 1) : Nat) : Int)

/-- The greatest sample of the channel-sample type (R146). -/
def sampleMax (p : Params) : Int := ((2 ^ (p.sampleBits - 1) : Nat) : Int) - 1

/-- `Quantize(v)` (R146): one FLOAT division, rounded once, then truncation toward zero; `none` where
the rule raises `Refuse(QuantizerRange)` (R147). -/
def quantize (p : Params) (v : Word) : Option Int :=
  if isfinite (fdiv v p.mvRes) then
    if ftrunc (fdiv v p.mvRes) < sampleMin p ∨ sampleMax p < ftrunc (fdiv v p.mvRes) then none
    else some (ftrunc (fdiv v p.mvRes))
  else none

/-- `sext_32` of a sample as a `SAMPLE_BITS`-bit two's complement integer (R100, R146). -/
def sampleWord (p : Params) (q : Int) : Word :=
  (BitVec.ofInt p.sampleBits q).signExtend 32

end Sys2Proof.Machine
end

