-- ==== Sys2Proof/Machine/Flags.lean ====
section
/-! DEFINITION. Flags. The core has no condition codes and no status register, and arithmetic sets
nothing (spec/10_state.md R41, spec/40_shared_numerics.md R133). Its one-bit state is `cfg` and
`osc_bound` of the two modulators; these are the tests the value commands make on them. -/

namespace Sys2Proof.Machine

/-- Go on with `o` when the unit's `cfg` is 1, else `Fault(NotConfigured)` (R208). -/
def requireConfigured {α : Type} (cfg : Bool) (o : Host.Outcome α Fault Refusal) :
    Host.Outcome α Fault Refusal :=
  if cfg then o else .fault .notConfigured

/-- Go on with `o` when the unit's `osc_bound` is 1, else `Fault(NoOscillator)` (R207). -/
def requireOscillator {α : Type} (oscBound : Bool) (o : Host.Outcome α Fault Refusal) :
    Host.Outcome α Fault Refusal :=
  if oscBound then o else .fault .noOscillator

end Sys2Proof.Machine
end

