-- ==== Sys2Proof/Machine/Common.lean ====
section
/-! DEFINITION. The steps both modulators share: the binding event of an INIT
(spec/40_shared_numerics.md R145, spec/20_memory.md R63) and the two ways a value command ends
(spec/30_encoding.md R100, R148). -/

namespace Sys2Proof.Machine

/-- The event of an INIT on port `p` with the stored amplitude and frequency: one `OscInit` when an
oscillator is supplied, none otherwise (R63, R145). -/
def initEvents (p : OscPort) (osc : Bool) (amp freq : Word) : List OscEvent :=
  if osc then [.init p sine amp freq fZero fZero] else []

/-- End a `GetValue`: the FLOAT is the result (R100). -/
def returnVolts (r : Word × State) : Host.Outcome State Fault Refusal :=
  .next (r.2.finish (some r.1))

/-- End a `GetSample`: the value is quantised, and a refusal of the quantiser refuses the whole
operation (R100, R146, R148). -/
def returnSample (r : Word × State) : Host.Outcome State Fault Refusal :=
  match quantize r.2.params r.1 with
  | some q => .next (r.2.finish (some (sampleWord r.2.params q)))
  | none => .refused .quantizerRange

end Sys2Proof.Machine
end

