-- ==== Sys2Proof/Machine/Analog.lean ====
section
/-! DEFINITION. The AnalogModulator: `AINIT.AM`, `AINIT.FM`, `AINIT.PM`, `AINIT.U3`, `AVAL`, `ASMP`
(spec/41_analog_modulator.md). -/

namespace Sys2Proof.Machine

/-- The steps all `AINIT` share (R145, R161); `newK` is what `am.K` holds afterwards. -/
def analogInit (ty : AnalogType) (newK a f k : Word) (osc : Bool) (s : State) :
    Host.Outcome State Fault Refusal :=
  admitInit a f k
    (.next
      (((s.setAm
        { cfg := true
          ty := ty
          a := clampAmplitude s.params a
          f := clampFrequency s.params f
          k := newK
          oscBound := s.am.oscBound || osc }).emit
        (initEvents .a osc (clampAmplitude s.params a) (clampFrequency s.params f))).finish none))

/-- `AINIT.AM` (R161, R162): the depth is the fractional part of `|k|`. -/
def execAinitAm (a f k : Word) (osc : Bool) (s : State) : Host.Outcome State Fault Refusal :=
  analogInit .am (fmod1 (fabs k)) a f k osc s

/-- `AINIT.FM` (R161, R163): the limit comes from the frequency this command stores (R144). -/
def execAinitFm (a f k : Word) (osc : Bool) (s : State) : Host.Outcome State Fault Refusal :=
  analogInit .fm (clampHi k (fdiv (clampFrequency s.params f) fEight)) a f k osc s

/-- `AINIT.PM` (R161, R164). -/
def execAinitPm (a f k : Word) (osc : Bool) (s : State) : Host.Outcome State Fault Refusal :=
  analogInit .pm (clampHi k s.params.pi4) a f k osc s

/-- `AINIT.U3` (R161, R165): `am.K` is not written. -/
def execAinitU3 (a f k : Word) (osc : Bool) (s : State) : Host.Outcome State Fault Refusal :=
  analogInit .u3 s.am.k a f k osc s

/-- `ValueAM(m)` (R169): one sample, used in both terms. -/
def valueAm (m : Word) (s : State) : Word × State :=
  (fadd (fmul (s.sample .a) s.am.a) (fmul s.am.k (fmul m (s.sample .a))), s.takeSample .a)

/-- `ValueFM(m)` (R167): the instantaneous frequency is sent, then one sample is taken. -/
def valueFm (m : Word) (s : State) : Word × State :=
  (fmul (s.sample .a) s.am.a,
    (s.emit [.setFreq .a (fadd s.am.f (fmul s.am.k m))]).takeSample .a)

/-- `ValuePM(m)` (R168): the phase offset is sent, then one sample is taken. -/
def valuePm (m : Word) (s : State) : Word × State :=
  (fmul (s.sample .a) s.am.a, (s.emit [.setPhase .a (fmul s.am.k m)]).takeSample .a)

/-- The tests a recognised type makes on `m` and on the binding, in the order of R166 and R263. -/
def analogAdmit (m : Word) (s : State) (r : Word × State) :
    Host.Outcome (Word × State) Fault Refusal :=
  admitFinite m (requireOscillator s.am.oscBound (.next r))

/-- `AnalogValue(m)` (R166), with the dispatch on the stored type (R106, R170). -/
def analogValue (m : Word) (s : State) : Host.Outcome (Word × State) Fault Refusal :=
  requireConfigured s.am.cfg
    (match s.am.ty with
      | .u3 => .next (fZero, s)
      | .am => analogAdmit m s (valueAm m s)
      | .fm => analogAdmit m s (valueFm m s)
      | .pm => analogAdmit m s (valuePm m s))

/-- `AVAL m` (R166). -/
def execAval (m : Word) (s : State) : Host.Outcome State Fault Refusal :=
  andThen (analogValue m s) returnVolts

/-- `ASMP m` (R171). -/
def execAsmp (m : Word) (s : State) : Host.Outcome State Fault Refusal :=
  andThen (analogValue m s) returnSample

end Sys2Proof.Machine
end

