-- ==== Sys2Proof/Machine/Binary.lean ====
section
/-! DEFINITION. The BinaryModulator: `BINIT.ASK`, `BINIT.FSK`, `BINIT.PSK`, `BINIT.U3`, `BVAL`, `BSMP`
(spec/42_binary_modulator.md). -/

namespace Sys2Proof.Machine

/-- The steps all `BINIT` share (R145, R201); `newK` and `newS` are what `bm.K` and `bm.S` hold
afterwards. `bm.ssc` and `bm.msps` are not written (R37). -/
def binaryInit (ty : BinaryType) (newK newS a f k : Word) (osc : Bool) (s : State) :
    Host.Outcome State Fault Refusal :=
  admitInit a f k
    (.next
      (((s.setBm
        { cfg := true
          ty := ty
          a := clampAmplitude s.params a
          f := clampFrequency s.params f
          k := newK
          s := newS
          oscBound := s.bm.oscBound || osc
          ssc := s.bm.ssc
          msps := s.bm.msps }).emit
        (initEvents .b osc (clampAmplitude s.params a) (clampFrequency s.params f))).finish none))

/-- `BINIT.ASK` (R201, R202): the limit comes from the amplitude this command stores (R144); `bm.S` is
not written (R34). -/
def execBinitAsk (a f k : Word) (osc : Bool) (s : State) : Host.Outcome State Fault Refusal :=
  binaryInit .ask (clampHi k (fmul fQuarter (clampAmplitude s.params a))) s.bm.s a f k osc s

/-- What `BINIT.FSK` stores in `bm.K` (R203). -/
def fskShift (p : Params) (f k : Word) : Word :=
  clampHi k (fmul fEighth (clampFrequency p f))

/-- `BINIT.FSK` (R201, R203): `bm.S` is half of the stored `bm.K`; nothing runs on into PSK. -/
def execBinitFsk (a f k : Word) (osc : Bool) (s : State) : Host.Outcome State Fault Refusal :=
  binaryInit .fsk (fskShift s.params f k) (fdiv (fskShift s.params f k) fTwo) a f k osc s

/-- `BINIT.PSK` (R201, R204): the one two-sided clamp (R143); `bm.S` is not written (R34). -/
def execBinitPsk (a f k : Word) (osc : Bool) (s : State) : Host.Outcome State Fault Refusal :=
  binaryInit .psk (clampRange k fZero s.params.pi2) s.bm.s a f k osc s

/-- `BINIT.U3` (R201, R205): neither `bm.K` nor `bm.S` is written. -/
def execBinitU3 (a f k : Word) (osc : Bool) (s : State) : Host.Outcome State Fault Refusal :=
  binaryInit .u3 s.bm.k s.bm.s a f k osc s

/-- `ValuePSK(s)` (R211): symbol 1 flips the sign. -/
def valuePsk (sy : Byte) (s : State) : Word × State :=
  (if sy = 0#8 then fmul (s.sample .b) s.bm.a else fneg (fmul (s.sample .b) s.bm.a),
    s.takeSample .b)

/-- `ValueASK(s)` (R212): symbol 1 halves the product. -/
def valueAsk (sy : Byte) (s : State) : Word × State :=
  (if sy = 0#8 then fmul (s.sample .b) s.bm.a else fmul fHalf (fmul (s.sample .b) s.bm.a),
    s.takeSample .b)

/-- `ValueFSK(s)` (R213): the symbol's frequency is sent on every call, then one sample is taken. -/
def valueFsk (sy : Byte) (s : State) : Word × State :=
  (fmul (s.sample .b) s.bm.a,
    (s.emit [.setFreq .b (if sy = 0#8 then fsub s.bm.f s.bm.s else fadd s.bm.f s.bm.s)]).takeSample .b)

/-- The tests a recognised type makes on the symbol and on the binding, in the order of R206 and
R263. -/
def binaryAdmit (sy : Byte) (s : State) (r : Word × State) :
    Host.Outcome (Word × State) Fault Refusal :=
  admitSymbol sy (requireOscillator s.bm.oscBound (.next r))

/-- `BinaryValue(s)` (R206), with the dispatch on the stored type (R106, R210). -/
def binaryValue (sy : Byte) (s : State) : Host.Outcome (Word × State) Fault Refusal :=
  requireConfigured s.bm.cfg
    (match s.bm.ty with
      | .u3 => .next (fZero, s)
      | .ask => binaryAdmit sy s (valueAsk sy s)
      | .fsk => binaryAdmit sy s (valueFsk sy s)
      | .psk => binaryAdmit sy s (valuePsk sy s))

/-- `BVAL s` (R206). -/
def execBval (sy : Byte) (s : State) : Host.Outcome State Fault Refusal :=
  andThen (binaryValue sy s) returnVolts

/-- `BSMP s` (R215). -/
def execBsmp (sy : Byte) (s : State) : Host.Outcome State Fault Refusal :=
  andThen (binaryValue sy s) returnSample

end Sys2Proof.Machine
end

