-- ==== Sys2Proof/Machine/Symbol.lean ====
section
/-! DEFINITION. The SymbolExtractor: `SYM` (spec/43_symbol_extractor.md). -/

namespace Sys2Proof.Machine

/-- The bit of `b` at the cursor: `(b >> cursor) & 1` (R241). -/
def cursorBit (b : Byte) (c : BitVec 3) : Bool := b.getLsbD c.toNat

/-- `SYM b` (R241): the bit of the byte presented with this command, and the cursor advances modulo 8
(R242). It cannot fault or be refused. -/
def execSym (b : Byte) (s : State) : Host.Outcome State Fault Refusal :=
  .next ((s.setCursor (s.sx.cursor + 1#3)).finish
    (some (BitVec.zeroExtend 32 (BitVec.ofBool (cursorBit b s.sx.cursor)))))

end Sys2Proof.Machine
end

