-- ==== Sys2Proof/Machine/Dispatch.lean ====
section
/-! DEFINITION. The meaning of each command: one arm per constructor of `Instr` (spec/30_encoding.md
R94). -/

namespace Sys2Proof.Machine

def exec (i : Instr) (s : State) : Host.Outcome State Fault Refusal :=
  match i with
  | .ainitAm a f k osc => Sys2Proof.Machine.execAinitAm a f k osc s
  | .ainitFm a f k osc => Sys2Proof.Machine.execAinitFm a f k osc s
  | .ainitPm a f k osc => Sys2Proof.Machine.execAinitPm a f k osc s
  | .ainitU3 a f k osc => Sys2Proof.Machine.execAinitU3 a f k osc s
  | .aval m => Sys2Proof.Machine.execAval m s
  | .asmp m => Sys2Proof.Machine.execAsmp m s
  | .binitAsk a f k osc => Sys2Proof.Machine.execBinitAsk a f k osc s
  | .binitFsk a f k osc => Sys2Proof.Machine.execBinitFsk a f k osc s
  | .binitPsk a f k osc => Sys2Proof.Machine.execBinitPsk a f k osc s
  | .binitU3 a f k osc => Sys2Proof.Machine.execBinitU3 a f k osc s
  | .bval sy => Sys2Proof.Machine.execBval sy s
  | .bsmp sy => Sys2Proof.Machine.execBsmp sy s
  | .sym b => Sys2Proof.Machine.execSym b s

end Sys2Proof.Machine
end

