-- ==== Sys2Proof/Machine/Step.lean ====
section
/-! DEFINITION. One step of the machine: the next host move (spec/20_memory.md R61, R70, R81;
spec/70_reset_and_hazards.md R300). -/

namespace Sys2Proof.Machine

/-- One step. With no host move pending the core holds its state (R271, R302; log entry 2). A reset is
performed at the command boundary (R300). A command frame is decoded (R92) and, unless it is
reserved (R103), performed to completion (R61). -/
def step (s : State) : Host.Outcome State Fault Refusal :=
  match s.inbox with
  | [] => .next s
  | .reset :: rest => .next (s.setInbox rest).hostReset
  | .command fr :: rest =>
    match decode fr with
    | .command i => exec i (s.setInbox rest)
    | .reservedCommand => .refused .reservedCommand

/-- `s` with the frame whose lowest `nbits` bits are `w`, the others 0, as the host's next move: the
next step decodes and runs exactly it (log entries 1 and 16). -/
def State.withFetchWord (s : State) (nbits w : Nat) : State :=
  s.setInbox (.command (frameOfBits (w % 2 ^ nbits)) :: s.inbox)

end Sys2Proof.Machine
end

