-- ==== Sys2Proof/Safety.lean ====
section
/-! DEFINITION. The terms claims are stated in: the invariants of spec/10_state.md R40, good runs
(spec/60_exceptions.md R272), the premises about oscillators (spec/20_memory.md R67), what a command
emits (R63 to R66, R76) and which commands belong to which unit (R42). -/

namespace Sys2Proof.Machine

/-! ### Invariants -/

/-- R40 for the AnalogModulator: nothing is claimed before `cfg` is 1. -/
def AnalogUnit.Inv (p : Params) (u : AnalogUnit) : Prop :=
  u.cfg = true →
    fgt u.a (aMax p) = false ∧ fgt u.f (fMax p) = false ∧
      match u.ty with
      | .am => flt u.k fZero = false ∧ flt u.k fOne = true
      | .fm => fgt u.k (fdiv u.f fEight) = false
      | .pm => fgt u.k p.pi4 = false
      | .u3 => True

/-- R40 for the BinaryModulator. For PSK the register is moreover no NaN, so that its two
comparisons say `0 <= K <= PI_2`. -/
def BinaryUnit.Inv (p : Params) (u : BinaryUnit) : Prop :=
  u.cfg = true →
    fgt u.a (aMax p) = false ∧ fgt u.f (fMax p) = false ∧
      match u.ty with
      | .ask => fgt u.k (fmul fQuarter u.a) = false
      | .fsk => fgt u.k (fmul fEighth u.f) = false ∧ u.s = fdiv u.k fTwo
      | .psk => isNaN u.k = false ∧ flt u.k fZero = false ∧ fgt u.k p.pi2 = false
      | .u3 => True

/-- An event the core may emit: `OscInit` is a sinusoid at a clamped amplitude and frequency with zero
phase and offset (R63), and the BinaryModulator never sends `OscSetPhase` (R65). -/
def OscEvent.Legal (p : Params) : OscEvent → Prop
  | .init _ wave amp freq phase offset =>
    wave = sine ∧ phase = fZero ∧ offset = fZero ∧ fgt amp (aMax p) = false ∧
      fgt freq (fMax p) = false
  | .setFreq _ _ => True
  | .setPhase q _ => q = .a
  | .get _ _ => True

/-- The machine's invariant: `ParamsValid` (R274), R40 for both modulators, a binding only through an
INIT (R27, R35, R28, R36), and a legal trace. The cursor's range is its type (R40). -/
structure State.Inv (s : State) : Prop where
  paramsValid : s.params.valid = true
  analog : s.am.Inv s.params
  binary : s.bm.Inv s.params
  analogBound : s.am.oscBound = true → s.am.cfg = true
  binaryBound : s.bm.oscBound = true → s.bm.cfg = true
  traceLegal : ∀ e ∈ s.trace, e.Legal s.params

/-! ### Runs -/

/-- A good run (R272): `n` steps from `s`, each ended ok (`NoVerdict`, R274), reach `t`. -/
def GoodRun (n : Nat) (s t : State) : Prop :=
  Host.Core.run Sys2Proof.core n s = .next t

/-- Commands performed one after another, stopping at a verdict (R61, R71, R272). -/
def execAll : List Instr → State → Host.Outcome State Fault Refusal
  | [], s => .next s
  | i :: is, s => andThen (exec i s) (execAll is)

/-- An outcome with its next state changed by `g`; a verdict stays. -/
def mapNext (g : State → State) (o : Host.Outcome State Fault Refusal) :
    Host.Outcome State Fault Refusal :=
  andThen o fun t => .next (g t)

/-! ### Premises about the oscillators -/

/-- `UnitSample` (R67): the answer is finite and in `[-1, 1]`. -/
def UnitSample (c : Word) : Prop :=
  isfinite c = true ∧ flt c (fneg fOne) = false ∧ fgt c fOne = false

/-- `HeldPhase` (R67): every answer recorded on port `p` is `c`. -/
def HeldPhase (p : OscPort) (c : Word) (tr : List OscEvent) : Prop :=
  ∀ c', OscEvent.get p c' ∈ tr → c' = c

/-! ### Commands and their units -/

/-- The commands that write `am.*` (R42). -/
def isAinit : Instr → Bool
  | .ainitAm _ _ _ _ | .ainitFm _ _ _ _ | .ainitPm _ _ _ _ | .ainitU3 _ _ _ _ => true
  | .aval _ | .asmp _ | .binitAsk _ _ _ _ | .binitFsk _ _ _ _ | .binitPsk _ _ _ _
  | .binitU3 _ _ _ _ | .bval _ | .bsmp _ | .sym _ => false

/-- The commands that write `bm.*` (R42). -/
def isBinit : Instr → Bool
  | .binitAsk _ _ _ _ | .binitFsk _ _ _ _ | .binitPsk _ _ _ _ | .binitU3 _ _ _ _ => true
  | .ainitAm _ _ _ _ | .ainitFm _ _ _ _ | .ainitPm _ _ _ _ | .ainitU3 _ _ _ _ | .aval _ | .asmp _
  | .bval _ | .bsmp _ | .sym _ => false

/-- The command that writes `sx.cursor` (R42). -/
def isSym : Instr → Bool
  | .sym _ => true
  | .ainitAm _ _ _ _ | .ainitFm _ _ _ _ | .ainitPm _ _ _ _ | .ainitU3 _ _ _ _ | .aval _ | .asmp _
  | .binitAsk _ _ _ _ | .binitFsk _ _ _ _ | .binitPsk _ _ _ _ | .binitU3 _ _ _ _ | .bval _
  | .bsmp _ => false

/-- The value commands of the AnalogModulator. -/
def isAnalogValue : Instr → Bool
  | .aval _ | .asmp _ => true
  | .ainitAm _ _ _ _ | .ainitFm _ _ _ _ | .ainitPm _ _ _ _ | .ainitU3 _ _ _ _ | .binitAsk _ _ _ _
  | .binitFsk _ _ _ _ | .binitPsk _ _ _ _ | .binitU3 _ _ _ _ | .bval _ | .bsmp _ | .sym _ => false

/-- The value commands of the BinaryModulator. -/
def isBinaryValue : Instr → Bool
  | .bval _ | .bsmp _ => true
  | .ainitAm _ _ _ _ | .ainitFm _ _ _ _ | .ainitPm _ _ _ _ | .ainitU3 _ _ _ _ | .aval _ | .asmp _
  | .binitAsk _ _ _ _ | .binitFsk _ _ _ _ | .binitPsk _ _ _ _ | .binitU3 _ _ _ _ | .sym _ => false

/-- The `osc` operand of an `AINIT`, `false` for every other command: the command binds the oscillator
of the AnalogModulator (R27). -/
def bindsAnalog : Instr → Bool
  | .ainitAm _ _ _ osc | .ainitFm _ _ _ osc | .ainitPm _ _ _ osc | .ainitU3 _ _ _ osc => osc
  | .aval _ | .asmp _ | .binitAsk _ _ _ _ | .binitFsk _ _ _ _ | .binitPsk _ _ _ _
  | .binitU3 _ _ _ _ | .bval _ | .bsmp _ | .sym _ => false

/-- The same for the BinaryModulator (R35). -/
def bindsBinary : Instr → Bool
  | .binitAsk _ _ _ osc | .binitFsk _ _ _ osc | .binitPsk _ _ _ osc | .binitU3 _ _ _ osc => osc
  | .ainitAm _ _ _ _ | .ainitFm _ _ _ _ | .ainitPm _ _ _ _ | .ainitU3 _ _ _ _ | .aval _ | .asmp _
  | .bval _ | .bsmp _ | .sym _ => false

/-! ### What a command emits and leaves alone -/

/-- The parameter messages a value command of the AnalogModulator sends before its `OscGet`, by the
stored type (R64, R65, R76). -/
def analogMessages (u : AnalogUnit) (m : Word) : List OscEvent :=
  match u.ty with
  | .am => []
  | .fm => [.setFreq .a (fadd u.f (fmul u.k m))]
  | .pm => [.setPhase .a (fmul u.k m)]
  | .u3 => []

/-- The same for the BinaryModulator (R64, R76). -/
def binaryMessages (u : BinaryUnit) (sy : Byte) : List OscEvent :=
  match u.ty with
  | .ask => []
  | .fsk => [.setFreq .b (if sy = 0#8 then fsub u.f u.s else fadd u.f u.s)]
  | .psk => []
  | .u3 => []

/-- The events of a value command of the AnalogModulator that ends ok: none with the unrecognised
type (R170), else the messages and one `OscGet`, last (R66). -/
def analogEvents (s : State) (m : Word) : List OscEvent :=
  if s.am.ty = .u3 then [] else analogMessages s.am m ++ [.get .a (s.sample .a)]

/-- The same for the BinaryModulator (R66, R210). -/
def binaryEvents (s : State) (sy : Byte) : List OscEvent :=
  if s.bm.ty = .u3 then [] else binaryMessages s.bm sy ++ [.get .b (s.sample .b)]

/-- The events of an INIT: an `OscInit` exactly when an oscillator is supplied (R63). -/
def initEventsOf (p : OscPort) (s : State) (a f : Word) (osc : Bool) : List OscEvent :=
  if osc then [.init p sine (clampHi a (aMax s.params)) (clampHi f (fMax s.params)) fZero fZero]
  else []

/-- The events of a command that ends ok (R63 to R66, R76). -/
def commandEvents (s : State) : Instr → List OscEvent
  | .ainitAm a f _ osc => initEventsOf .a s a f osc
  | .ainitFm a f _ osc => initEventsOf .a s a f osc
  | .ainitPm a f _ osc => initEventsOf .a s a f osc
  | .ainitU3 a f _ osc => initEventsOf .a s a f osc
  | .aval m => analogEvents s m
  | .asmp m => analogEvents s m
  | .binitAsk a f _ osc => initEventsOf .b s a f osc
  | .binitFsk a f _ osc => initEventsOf .b s a f osc
  | .binitPsk a f _ osc => initEventsOf .b s a f osc
  | .binitU3 a f _ osc => initEventsOf .b s a f osc
  | .bval sy => binaryEvents s sy
  | .bsmp sy => binaryEvents s sy
  | .sym _ => []

/-- The voltage a value command of the AnalogModulator computes from the carrier sample `c` with a
recognised type (R167 to R169). -/
def analogVolts (u : AnalogUnit) (m c : Word) : Word :=
  if u.ty = .am then fadd (fmul c u.a) (fmul u.k (fmul m c)) else fmul c u.a

/-- The voltage a value command of the BinaryModulator computes from the carrier sample `c` with a
recognised type (R211 to R213). -/
def binaryVolts (u : BinaryUnit) (sy : Byte) (c : Word) : Word :=
  match u.ty with
  | .ask => if sy = 0#8 then fmul c u.a else fmul fHalf (fmul c u.a)
  | .fsk => fmul c u.a
  | .psk => if sy = 0#8 then fmul c u.a else fneg (fmul c u.a)
  | .u3 => fZero

/-- The registers, the parameters and the host moves still to be made are those of `s`. -/
structure SameRegisters (s t : State) : Prop where
  am : t.am = s.am
  bm : t.bm = s.bm
  sx : t.sx = s.sx
  params : t.params = s.params
  inbox : t.inbox = s.inbox

/-- `t` is `s` after a value command that sent `messages`, took one sample on port `p` and returned
`r`: no register is written (R42) and the events are appended in order (R71). `s.sample p` is
whatever the oscillator answers (R66; log entry 3). -/
structure AfterSample (p : OscPort) (messages : List OscEvent) (r : Word) (s t : State) : Prop where
  registers : SameRegisters s t
  trace : t.trace = s.trace ++ messages ++ [.get p (s.sample p)]
  results : t.results = s.results ++ [some r]

/-- How many `OscGet`s a list of events has on port `p`. -/
def countGets (p : OscPort) (es : List OscEvent) : Nat :=
  es.countP fun e => e.isGet && decide (e.port = p)

/-- `FITS`: the quotient of the quantiser is finite and its truncation fits `SAMPLE_BITS` bits
(R146). -/
def fitsSample (p : Params) (v : Word) : Prop :=
  isfinite (fdiv v p.mvRes) = true ∧
    -(2 ^ (p.sampleBits - 1) : Int) ≤ ftrunc (fdiv v p.mvRes) ∧
    ftrunc (fdiv v p.mvRes) ≤ (2 ^ (p.sampleBits - 1) : Int) - 1

/-- The result word of a sample that fits: its 32-bit two's complement (R100). -/
def sampleResult (p : Params) (v : Word) : Word := BitVec.ofInt 32 (ftrunc (fdiv v p.mvRes))

end Sys2Proof.Machine
end

