-- ==== Sys2Proof/Certificates/Slice0/Obligations.lean ====
section
/-! DEFINITION. The statements for the provers. Each docstring names the rule or the section of spec/ it
formalises; OBLIGATIONS.json lists them. -/

open Sys2Proof Sys2Proof.Machine

/-! ### Encoding -/

/-- Decoding an encoded command gives the command back, with every operand at every value its field
admits (spec/30_encoding.md section 2 and 3). -/
def Obligations.DecodeEncodeRoundTrip : Prop :=
  ∀ i : Instr, decode (encode i) = .command i

/-- R94: a frame decodes to a command exactly when it selects that command's row of the opcode map by
match and mask, and is reserved exactly when it selects none. -/
def Obligations.DecodeFollowsOpcodeMap : Prop :=
  ∀ fr : Frame,
    (∀ i, decode fr = .command i →
      ∃ row ∈ opcodeTable, row.mnemonic = i.mnemonic ∧ row.selects fr = true) ∧
    (∀ row ∈ opcodeTable, row.selects fr = true →
      ∃ i, decode fr = .command i ∧ i.mnemonic = row.mnemonic) ∧
    (decode fr = .reservedCommand ↔ ∀ row ∈ opcodeTable, row.selects fr = false)

/-- R103: a frame is reserved when any of the six conditions holds; the step then refuses it, with no
state, event or result, and it refuses no other frame so. -/
def Obligations.ReservedFramesAreRefused : Prop :=
  ∀ (s : State) (fr : Frame) (rest : List HostMove), s.inbox = .command fr :: rest →
    ((step s = .refused .reservedCommand ↔ decode fr = .reservedCommand) ∧
      (decode fr = .reservedCommand ↔
        (fr.rsv1 ≠ 0#8 ∨ fr.rsv0 ≠ 0#7) ∨ fr.z ≠ 0#2 ∨ fr.unit = 3#2 ∨ fr.op = 0#2 ∨
          (fr.unit = 2#2 ∧ fr.op ≠ 2#2) ∨
          ((fr.op = 2#2 ∨ fr.op = 3#2 ∨ fr.unit = 2#2) ∧ fr.ty ≠ 0#2)))

/-- A decoded frame is the encoding of its command up to the fields the command ignores: `arg8` is
ignored but by `BVAL`, `BSMP`, `SYM`, `osc` but by the INITs, and each FLOAT word but by the commands
that read it (spec/30_encoding.md section 2). -/
def Obligations.DecodedFrameIsEncodingButForIgnoredFields : Prop :=
  ∀ (fr : Frame) (i : Instr), decode fr = .command i →
    (∀ n, n < 8 → (encode i).w0.getLsbD n = fr.w0.getLsbD n) ∧
    ((encode i).osc = if isAinit i || isBinit i then fr.osc else false) ∧
    ((encode i).arg8 = if isBinaryValue i || isSym i then fr.arg8 else 0#8) ∧
    (encode i).rsv0 = fr.rsv0 ∧ (encode i).rsv1 = fr.rsv1 ∧
    ((encode i).w1 = if isAinit i || isBinit i || isAnalogValue i then fr.w1 else 0#32) ∧
    ((encode i).w2 = if isAinit i || isBinit i then fr.w2 else 0#32) ∧
    ((encode i).w3 = if isAinit i || isBinit i then fr.w3 else 0#32)

/-- R110: the three worked encodings decode to the commands they stand for; `BVAL` and `SYM` ignore
`W1` to `W3`. -/
def Obligations.WorkedEncodingsDecode : Prop :=
  decode ⟨0x00000115#32, 0x3F800000#32, 0x45FA0000#32, 0x43C80000#32⟩ =
      .command (.binitFsk 0x3F800000#32 0x45FA0000#32 0x43C80000#32 true) ∧
    (∀ x y z, decode ⟨0x00010018#32, x, y, z⟩ = .command (.bval 1#8)) ∧
    (∀ x y z, decode ⟨0x00B20028#32, x, y, z⟩ = .command (.sym 0xB2#8))

/-! ### The step -/

/-- A step runs the decoded command: with a frame as the host's next move that decodes to `i`, the
step takes the move from the inbox and is `exec i` (spec/20_memory.md section 1). Every term of
`Instr` is well formed. -/
def Obligations.StepRunsDecodedCommand : Prop :=
  ∀ (s : State) (fr : Frame) (rest : List HostMove) (i : Instr),
    s.inbox = .command fr :: rest → decode fr = .command i →
      step s = exec i { s with inbox := rest }

/-- With no host move pending the core holds its state and does nothing (spec/60_exceptions.md section
7; that this is a step is the model's choice, log entry 2). -/
def Obligations.StepHoldsStateWhileNothingIsPending : Prop :=
  ∀ s : State, s.inbox = [] → step s = .next s

/-- The host's reset: the cursor, the `cfg` and the `osc_bound` bits become 0; no event is emitted, no
result returned, trace and results are not erased, the parameters stay (spec/70_reset_and_hazards.md
section 1). The registers the spec leaves without a value are left out. -/
def Obligations.ResetMoveClearsTheConfiguration : Prop :=
  ∀ (s : State) (rest : List HostMove), s.inbox = .reset :: rest →
    ∃ t, step s = .next t ∧ t.sx.cursor = 0#3 ∧ t.am.cfg = false ∧ t.bm.cfg = false ∧
      t.am.oscBound = false ∧ t.bm.oscBound = false ∧ t.trace = s.trace ∧ t.results = s.results ∧
      t.params = s.params ∧ t.inbox = rest ∧ t.oscA = s.oscA ∧ t.oscB = s.oscB ∧ t.draws = s.draws

/-- The state after reset, in the values the spec gives (spec/10_state.md section 7). -/
def Obligations.ResetStateIsUnconfigured : Prop :=
  State.reset.sx.cursor = 0#3 ∧ State.reset.am.cfg = false ∧ State.reset.bm.cfg = false ∧
    State.reset.am.oscBound = false ∧ State.reset.bm.oscBound = false ∧ State.reset.trace = []

/-! ### The INIT commands: result, frame and completion -/

/-- `AINIT.AM` (spec/41_analog_modulator.md section 2): on finite operands it completes, and the whole
next state is given. The empty entry in the results is the model's record (log entry 12). -/
def Obligations.AinitAmConfigures : Prop :=
  ∀ (a f k : Word) (osc : Bool) (s : State),
    isfinite a = true → isfinite f = true → isfinite k = true →
      exec (.ainitAm a f k osc) s = .next { s with
        am :=
          { cfg := true
            ty := .am
            a := if fgt a (fdiv s.params.vpp fTwo) then fdiv s.params.vpp fTwo else a
            f := if fgt f (fdiv s.params.fs fFour) then fdiv s.params.fs fFour else f
            k := fmod1 (fabs k)
            oscBound := s.am.oscBound || osc }
        trace := s.trace ++ initEventsOf .a s a f osc
        results := s.results ++ [none] }

/-- `AINIT.FM` (R163, with the steps of R161): on finite operands it completes, and the whole next state
is given but for the record of results; the limit is an eighth of the frequency this same command
stores. -/
def Obligations.AinitFmConfigures : Prop :=
  ∀ (a f k : Word) (osc : Bool) (s : State),
    isfinite a = true → isfinite f = true → isfinite k = true →
      ∃ rs, exec (.ainitFm a f k osc) s = .next { s with
        am :=
          { cfg := true
            ty := .fm
            a := if fgt a (fdiv s.params.vpp fTwo) then fdiv s.params.vpp fTwo else a
            f := if fgt f (fdiv s.params.fs fFour) then fdiv s.params.fs fFour else f
            k := clampHi k (fdiv (clampHi f (fdiv s.params.fs fFour)) fEight)
            oscBound := s.am.oscBound || osc }
        trace := s.trace ++ initEventsOf .a s a f osc
        results := rs }

/-- `AINIT.PM` (R164, with the steps of R161): on finite operands it completes, and the whole next state
is given but for the record of results; on saturation `am.K` is the bit pattern of `PI_4`. -/
def Obligations.AinitPmConfigures : Prop :=
  ∀ (a f k : Word) (osc : Bool) (s : State),
    isfinite a = true → isfinite f = true → isfinite k = true →
      ∃ rs, exec (.ainitPm a f k osc) s = .next { s with
        am :=
          { cfg := true
            ty := .pm
            a := if fgt a (fdiv s.params.vpp fTwo) then fdiv s.params.vpp fTwo else a
            f := if fgt f (fdiv s.params.fs fFour) then fdiv s.params.fs fFour else f
            k := if fgt k s.params.pi4 then s.params.pi4 else k
            oscBound := s.am.oscBound || osc }
        trace := s.trace ++ initEventsOf .a s a f osc
        results := rs }

/-- `AINIT.U3` (spec/41_analog_modulator.md section 2): as the others, but `am.K` is not
written. The empty entry in the results is the model's record (log entry 12). -/
def Obligations.AinitU3KeepsParameter : Prop :=
  ∀ (a f k : Word) (osc : Bool) (s : State),
    isfinite a = true → isfinite f = true → isfinite k = true →
      exec (.ainitU3 a f k osc) s = .next { s with
        am :=
          { cfg := true
            ty := .u3
            a := if fgt a (fdiv s.params.vpp fTwo) then fdiv s.params.vpp fTwo else a
            f := if fgt f (fdiv s.params.fs fFour) then fdiv s.params.fs fFour else f
            k := s.am.k
            oscBound := s.am.oscBound || osc }
        trace := s.trace ++ initEventsOf .a s a f osc
        results := s.results ++ [none] }

/-- `BINIT.ASK` (spec/42_binary_modulator.md section 2): on finite operands it completes, and the whole
next state is given; the limit is a quarter of the amplitude this same command stores. The empty entry in
the results is the model's record (log entry 12). -/
def Obligations.BinitAskConfigures : Prop :=
  ∀ (a f k : Word) (osc : Bool) (s : State),
    isfinite a = true → isfinite f = true → isfinite k = true →
      exec (.binitAsk a f k osc) s = .next { s with
        bm :=
          { cfg := true
            ty := .ask
            a := if fgt a (fdiv s.params.vpp fTwo) then fdiv s.params.vpp fTwo else a
            f := if fgt f (fdiv s.params.fs fFour) then fdiv s.params.fs fFour else f
            k := clampHi k (fmul fQuarter (clampHi a (fdiv s.params.vpp fTwo)))
            s := s.bm.s
            oscBound := s.bm.oscBound || osc
            ssc := s.bm.ssc
            msps := s.bm.msps }
        trace := s.trace ++ initEventsOf .b s a f osc
        results := s.results ++ [none] }

/-- `BINIT.FSK` (R203, with the steps of R201): on finite operands it completes, and the whole next
state is given but for the record of results; `bm.S` is half of the stored `bm.K`. -/
def Obligations.BinitFskConfigures : Prop :=
  ∀ (a f k : Word) (osc : Bool) (s : State),
    isfinite a = true → isfinite f = true → isfinite k = true →
      ∃ rs, exec (.binitFsk a f k osc) s = .next { s with
        bm :=
          { cfg := true
            ty := .fsk
            a := if fgt a (fdiv s.params.vpp fTwo) then fdiv s.params.vpp fTwo else a
            f := if fgt f (fdiv s.params.fs fFour) then fdiv s.params.fs fFour else f
            k := clampHi k (fmul fEighth (clampHi f (fdiv s.params.fs fFour)))
            s := fdiv (clampHi k (fmul fEighth (clampHi f (fdiv s.params.fs fFour)))) fTwo
            oscBound := s.bm.oscBound || osc
            ssc := s.bm.ssc
            msps := s.bm.msps }
        trace := s.trace ++ initEventsOf .b s a f osc
        results := rs }

/-- `BINIT.PSK` (spec/42_binary_modulator.md section 2): on finite operands it completes, and the whole
next state is given; the clamp has both sides. The empty entry in the results is the model's record
(log entry 12). -/
def Obligations.BinitPskConfigures : Prop :=
  ∀ (a f k : Word) (osc : Bool) (s : State),
    isfinite a = true → isfinite f = true → isfinite k = true →
      exec (.binitPsk a f k osc) s = .next { s with
        bm :=
          { cfg := true
            ty := .psk
            a := if fgt a (fdiv s.params.vpp fTwo) then fdiv s.params.vpp fTwo else a
            f := if fgt f (fdiv s.params.fs fFour) then fdiv s.params.fs fFour else f
            k := if flt k fZero then fZero else if fgt k s.params.pi2 then s.params.pi2 else k
            s := s.bm.s
            oscBound := s.bm.oscBound || osc
            ssc := s.bm.ssc
            msps := s.bm.msps }
        trace := s.trace ++ initEventsOf .b s a f osc
        results := s.results ++ [none] }

/-- `BINIT.U3` (spec/42_binary_modulator.md section 2): as the others, but neither `bm.K` nor `bm.S` is
written. The empty entry in the results is the model's record (log entry 12). -/
def Obligations.BinitU3KeepsParameters : Prop :=
  ∀ (a f k : Word) (osc : Bool) (s : State),
    isfinite a = true → isfinite f = true → isfinite k = true →
      exec (.binitU3 a f k osc) s = .next { s with
        bm :=
          { cfg := true
            ty := .u3
            a := if fgt a (fdiv s.params.vpp fTwo) then fdiv s.params.vpp fTwo else a
            f := if fgt f (fdiv s.params.fs fFour) then fdiv s.params.fs fFour else f
            k := s.bm.k
            s := s.bm.s
            oscBound := s.bm.oscBound || osc
            ssc := s.bm.ssc
            msps := s.bm.msps }
        trace := s.trace ++ initEventsOf .b s a f osc
        results := s.results ++ [none] }

/-! ### The value commands: result, frame and completion -/

/-- `AVAL` with type AM (R169): one `OscGet`, its one answer used in both terms. -/
def Obligations.AvalAmReturnsFormula : Prop :=
  ∀ (m : Word) (s : State), s.am.cfg = true → s.am.ty = .am → isfinite m = true →
    s.am.oscBound = true →
      ∃ t, exec (.aval m) s = .next t ∧
        AfterSample .a []
          (fadd (fmul (s.sample .a) s.am.a) (fmul s.am.k (fmul m (s.sample .a)))) s t

/-- `AVAL` with type FM (R167): the instantaneous frequency is sent, then the sample is taken and
scaled. -/
def Obligations.AvalFmSendsFrequency : Prop :=
  ∀ (m : Word) (s : State), s.am.cfg = true → s.am.ty = .fm → isfinite m = true →
    s.am.oscBound = true →
      ∃ t, exec (.aval m) s = .next t ∧
        AfterSample .a [.setFreq .a (fadd s.am.f (fmul s.am.k m))]
          (fmul (s.sample .a) s.am.a) s t

/-- `AVAL` with type PM (spec/41_analog_modulator.md section 3): the phase offset is sent, then the
sample is taken and scaled. -/
def Obligations.AvalPmSendsPhase : Prop :=
  ∀ (m : Word) (s : State), s.am.cfg = true → s.am.ty = .pm → isfinite m = true →
    s.am.oscBound = true →
      ∃ t, exec (.aval m) s = .next t ∧
        AfterSample .a [.setPhase .a (fmul s.am.k m)] (fmul (s.sample .a) s.am.a) s t

/-- R170: with the unrecognised type `AVAL` returns `+0.0` and `ASMP` the sample 0, whatever the message
(a NaN too) and whether or not an oscillator is bound; nothing is emitted and nothing else changes. -/
def Obligations.UnrecognisedAnalogTypeReturnsZero : Prop :=
  ∀ (m : Word) (s : State), s.params.valid = true → s.am.cfg = true → s.am.ty = .u3 →
    exec (.aval m) s = .next { s with results := s.results ++ [some 0x00000000#32] } ∧
      exec (.asmp m) s = .next { s with results := s.results ++ [some 0x00000000#32] }

/-- `ASMP` with a recognised type (spec/41_analog_modulator.md section 4): where the quotient fits the
sample type it completes, with the events of one `AVAL` and the truncated quotient as a 32-bit two's
complement result. -/
def Obligations.AsmpReturnsSample : Prop :=
  ∀ (m : Word) (s : State), s.params.valid = true → s.am.cfg = true → s.am.ty ≠ .u3 →
    isfinite m = true → s.am.oscBound = true →
    fitsSample s.params (analogVolts s.am m (s.sample .a)) →
      ∃ t, exec (.asmp m) s = .next t ∧
        AfterSample .a (analogMessages s.am m)
          (sampleResult s.params (analogVolts s.am m (s.sample .a))) s t

/-- `BVAL` with type ASK (spec/42_binary_modulator.md section 3): full amplitude for symbol 0, half of
the product for symbol 1. -/
def Obligations.BvalAskReturnsFixedRatio : Prop :=
  ∀ (sy : Byte) (s : State), s.bm.cfg = true → s.bm.ty = .ask → sy.toNat ≤ 1 →
    s.bm.oscBound = true →
      ∃ t, exec (.bval sy) s = .next t ∧
        AfterSample .b []
          (if sy = 0#8 then fmul (s.sample .b) s.bm.a else fmul fHalf (fmul (s.sample .b) s.bm.a))
          s t

/-- `BVAL` with type FSK (spec/42_binary_modulator.md section 3): the symbol's frequency is sent on
every call, then the sample is taken and scaled. -/
def Obligations.BvalFskSendsTone : Prop :=
  ∀ (sy : Byte) (s : State), s.bm.cfg = true → s.bm.ty = .fsk → sy.toNat ≤ 1 →
    s.bm.oscBound = true →
      ∃ t, exec (.bval sy) s = .next t ∧
        AfterSample .b
          [.setFreq .b (if sy = 0#8 then fsub s.bm.f s.bm.s else fadd s.bm.f s.bm.s)]
          (fmul (s.sample .b) s.bm.a) s t

/-- `BVAL` with type PSK (R211): symbol 1 returns the product with its sign flipped, which differs from
symbol 0's in bit 31 only; the oscillator is told nothing. -/
def Obligations.BvalPskFlipsSign : Prop :=
  ∀ (sy : Byte) (s : State), s.bm.cfg = true → s.bm.ty = .psk → sy.toNat ≤ 1 →
    s.bm.oscBound = true →
      ∃ t, exec (.bval sy) s = .next t ∧
        AfterSample .b []
          (if sy = 0#8 then fmul (s.sample .b) s.bm.a
            else fmul (s.sample .b) s.bm.a ^^^ 0x80000000#32) s t

/-- R210: with the unrecognised type `BVAL` returns `+0.0` and `BSMP` the sample 0, for every symbol, in
or out of domain, bound or not; nothing is emitted and nothing else changes. -/
def Obligations.UnrecognisedBinaryTypeReturnsZero : Prop :=
  ∀ (sy : Byte) (s : State), s.params.valid = true → s.bm.cfg = true → s.bm.ty = .u3 →
    exec (.bval sy) s = .next { s with results := s.results ++ [some 0x00000000#32] } ∧
      exec (.bsmp sy) s = .next { s with results := s.results ++ [some 0x00000000#32] }

/-- `BSMP` with a recognised type (spec/42_binary_modulator.md section 4): where the quotient fits the
sample type it completes, with the events of one `BVAL` and the truncated quotient as a 32-bit two's
complement result. -/
def Obligations.BsmpReturnsSample : Prop :=
  ∀ (sy : Byte) (s : State), s.params.valid = true → s.bm.cfg = true → s.bm.ty ≠ .u3 →
    sy.toNat ≤ 1 → s.bm.oscBound = true →
    fitsSample s.params (binaryVolts s.bm sy (s.sample .b)) →
      ∃ t, exec (.bsmp sy) s = .next t ∧
        AfterSample .b (binaryMessages s.bm sy)
          (sampleResult s.params (binaryVolts s.bm sy (s.sample .b))) s t

/-- R148: `GetSample` performs the `GetValue` step exactly once, events included, and then quantises; if
the quantiser refuses, the whole operation is refused. The verdicts of `GetValue` are `GetSample`'s. -/
def Obligations.GetSampleQuantizesOneGetValue : Prop :=
  ∀ (v smp : Instr) (s : State), s.params.valid = true →
    ((∃ m, v = .aval m ∧ smp = .asmp m) ∨ (∃ sy, v = .bval sy ∧ smp = .bsmp sy)) →
      (∀ r, exec v s = .fault r → exec smp s = .fault r) ∧
      (∀ r, exec v s = .refused r → exec smp s = .refused r) ∧
      (∀ t x, exec v s = .next t → t.results = s.results ++ [some x] →
        (fitsSample s.params x →
          exec smp s = .next { t with results := s.results ++ [some (sampleResult s.params x)] }) ∧
        (¬ fitsSample s.params x → exec smp s = .refused .quantizerRange))

/-! ### Verdicts -/

/-- R138: an INIT is refused so exactly on a non-finite operand, and `AVAL`, `ASMP` exactly when the unit
is configured with a recognised type and the message is not finite; neither intermediate results nor
the oscillator's answer are looked at. -/
def Obligations.NonFiniteOperandsAreRefused : Prop :=
  (∀ (i : Instr) (a f k : Word) (osc : Bool) (s : State),
    (i = .ainitAm a f k osc ∨ i = .ainitFm a f k osc ∨ i = .ainitPm a f k osc ∨
      i = .ainitU3 a f k osc ∨ i = .binitAsk a f k osc ∨ i = .binitFsk a f k osc ∨
      i = .binitPsk a f k osc ∨ i = .binitU3 a f k osc) →
      (exec i s = .refused .nonFiniteOperand ↔
        ¬ (isfinite a = true ∧ isfinite f = true ∧ isfinite k = true))) ∧
  (∀ (i : Instr) (m : Word) (s : State), (i = .aval m ∨ i = .asmp m) →
    (exec i s = .refused .nonFiniteOperand ↔
      s.am.cfg = true ∧ s.am.ty ≠ .u3 ∧ isfinite m = false))

/-- R208: a value command before any INIT of its unit faults, whatever its operand. -/
def Obligations.UnconfiguredUnitsFault : Prop :=
  (∀ (i : Instr) (s : State), isAnalogValue i = true → s.am.cfg = false →
    exec i s = .fault .notConfigured) ∧
  (∀ (i : Instr) (s : State), isBinaryValue i = true → s.bm.cfg = false →
    exec i s = .fault .notConfigured)

/-- R207: a value command of a recognised type with no oscillator bound faults, once its operand is
admitted. -/
def Obligations.UnboundOscillatorFaults : Prop :=
  (∀ (m : Word) (s : State), s.am.cfg = true → s.am.ty ≠ .u3 → isfinite m = true →
    s.am.oscBound = false →
      exec (.aval m) s = .fault .noOscillator ∧ exec (.asmp m) s = .fault .noOscillator) ∧
  (∀ (sy : Byte) (s : State), s.bm.cfg = true → s.bm.ty ≠ .u3 → sy.toNat ≤ 1 →
    s.bm.oscBound = false →
      exec (.bval sy) s = .fault .noOscillator ∧ exec (.bsmp sy) s = .fault .noOscillator)

/-- R209: a symbol above 1 with a recognised type is refused, whether or not an oscillator is bound. -/
def Obligations.OutOfDomainSymbolsAreRefused : Prop :=
  ∀ (sy : Byte) (s : State), s.bm.cfg = true → s.bm.ty ≠ .u3 → 2 ≤ sy.toNat →
    exec (.bval sy) s = .refused .symbolOutOfDomain ∧
      exec (.bsmp sy) s = .refused .symbolOutOfDomain

/-- Which commands can raise which verdict (spec/60_exceptions.md section 2): an INIT only
`NonFiniteOperand`, `SYM` none, a symbol refusal only the BinaryModulator's value commands, a
quantiser refusal only the `GetSample`s, a fault only value commands. -/
def Obligations.VerdictsComeFromTheirCommands : Prop :=
  ∀ (i : Instr) (s : State),
    (∀ r, exec i s = .fault r → isAnalogValue i = true ∨ isBinaryValue i = true) ∧
    (∀ r, exec i s = .refused r →
      (r = .nonFiniteOperand ∧ (isAinit i = true ∨ isBinit i = true ∨ isAnalogValue i = true)) ∨
      (r = .symbolOutOfDomain ∧ isBinaryValue i = true) ∨
      (r = .quantizerRange ∧ ((∃ m, i = .asmp m) ∨ ∃ sy, i = .bsmp sy)))

/-! ### The SymbolExtractor -/

/-- R241: `SYM` always completes; it returns the bit of its byte at the cursor, zero-extended, the cursor
advances modulo 8, and nothing else changes. -/
def Obligations.SymReturnsCursorBit : Prop :=
  ∀ (b : Byte) (s : State),
    exec (.sym b) s = .next { s with
      sx := { cursor := BitVec.ofNat 3 ((s.sx.cursor.toNat + 1) % 8) }
      results := s.results ++
        [some (BitVec.ofNat 32 ((b.toNat >>> s.sx.cursor.toNat) % 2))] }

/-- R242: the cursor counts modulo 8 without end, and each `SYM` reads the position it has reached of
whatever byte it is given. -/
def Obligations.SymCursorCountsModuloEight : Prop :=
  ∀ (bs : List Byte) (s : State),
    ∃ t, execAll (bs.map .sym) s = .next t ∧
      t.sx.cursor.toNat = (s.sx.cursor.toNat + bs.length) % 8 ∧
      t.results = s.results ++ bs.zipIdx.map fun bj =>
        some (if bj.1.getLsbD ((s.sx.cursor.toNat + bj.2) % 8) then 1#32 else 0#32)

/-- R246: `SYM8 b` returns the bits of `b` from the cursor's position round to it, and leaves the cursor
where it was. -/
def Obligations.Sym8ReturnsRotatedByte : Prop :=
  ∀ (b : Byte) (s : State),
    ∃ t, execAll (sym8 b) s = .next t ∧ t.sx = s.sx ∧
      t.results = s.results ++ (List.range 8).map fun j =>
        some (if b.getLsbD ((s.sx.cursor.toNat + j) % 8) then 1#32 else 0#32)

/-- From cursor 0 the eight results of `SYM8 b` rebuild the byte (spec/43_symbol_extractor.md section
2, its properties). -/
def Obligations.Sym8ResultsRebuildByte : Prop :=
  ∀ (b : Byte) (s : State), s.sx.cursor = 0#3 →
    ∃ (t : State) (rs : List Word), execAll (sym8 b) s = .next t ∧ rs.length = 8 ∧
      t.results = s.results ++ rs.map some ∧
      b.toNat = (rs.zipIdx.map fun rj => rj.1.toNat * 2 ^ rj.2).sum

/-! ### Frames, events and results over all commands -/

/-- Only `AINIT` writes `am.*`, only `BINIT` writes `bm.*`, only `SYM` writes the cursor; no command
writes the pacing counters, the parameters or the moves still to be made (spec/10_state.md section
5). -/
def Obligations.RegistersAreWrittenByTheirUnitOnly : Prop :=
  ∀ (i : Instr) (s t : State), exec i s = .next t →
    (isAinit i = false → t.am = s.am) ∧ (isBinit i = false → t.bm = s.bm) ∧
    (isSym i = false → t.sx = s.sx) ∧ t.bm.ssc = s.bm.ssc ∧ t.bm.msps = s.bm.msps ∧
    t.params = s.params ∧ t.inbox = s.inbox

/-- A unit is configured from its first INIT on and bound from its first INIT with `osc = 1` on; an INIT
with `osc = 0` keeps an earlier binding, and no other command changes the two bits
(spec/10_state.md section 2 and 3). -/
def Obligations.StatusBitsRecordInits : Prop :=
  ∀ (i : Instr) (s t : State), exec i s = .next t →
    t.am.cfg = (s.am.cfg || isAinit i) ∧ t.am.oscBound = (s.am.oscBound || bindsAnalog i) ∧
      t.bm.cfg = (s.bm.cfg || isBinit i) ∧ t.bm.oscBound = (s.bm.oscBound || bindsBinary i)

/-- The events of every command that ends ok, in order and at the end of the trace (spec/20_memory.md
section 2 and 3): an INIT one `OscInit` or none, a value command of a recognised type its message
and then exactly one `OscGet`, every other command none. -/
def Obligations.CommandsEmitTheirEvents : Prop :=
  ∀ (i : Instr) (s t : State), exec i s = .next t → t.trace = s.trace ++ commandEvents s i

/-- Each `OscGet` uses up one answer: the script of its port loses its first entry, the other port's
stays, and the counter of answers advances by one (the model's own fields, log entries 3 and 4;
that each command takes its samples once is spec/20_memory.md section 2). -/
def Obligations.OscGetUsesUpOneAnswer : Prop :=
  ∀ (i : Instr) (s t : State), exec i s = .next t →
    (∀ p, t.script p = (s.script p).drop (countGets p (commandEvents s i))) ∧
      t.draws = s.draws + countGets .a (commandEvents s i) + countGets .b (commandEvents s i)

/-- Every command that ends ok adds one entry to the results, and it is empty exactly for the INITs
(spec/30_encoding.md section 3; that an INIT has an empty entry is the model's record, log entry
12). -/
def Obligations.CommandsReturnOneResult : Prop :=
  ∀ (i : Instr) (s t : State), exec i s = .next t →
    ∃ r, t.results = s.results ++ [r] ∧ (r = none ↔ isAinit i = true ∨ isBinit i = true)

/-- An INIT with an oscillator supplied tells it a sinusoid at the stored amplitude and frequency with
zero phase and offset; one without tells it nothing, so it keeps what it was last told; the other
unit's oscillator is told nothing (spec/70_reset_and_hazards.md section 3). -/
def Obligations.InitRestartsOrKeepsTheOscillator : Prop :=
  ∀ (i : Instr) (s t : State) (a f k : Word) (osc : Bool), exec i s = .next t →
    ((i = .ainitAm a f k osc ∨ i = .ainitFm a f k osc ∨ i = .ainitPm a f k osc ∨
        i = .ainitU3 a f k osc) →
      oscTold .a t.trace =
          (if osc then some ⟨sine, t.am.a, t.am.f, fZero, fZero⟩ else oscTold .a s.trace) ∧
        oscTold .b t.trace = oscTold .b s.trace) ∧
    ((i = .binitAsk a f k osc ∨ i = .binitFsk a f k osc ∨ i = .binitPsk a f k osc ∨
        i = .binitU3 a f k osc) →
      oscTold .b t.trace =
          (if osc then some ⟨sine, t.bm.a, t.bm.f, fZero, fZero⟩ else oscTold .b s.trace) ∧
        oscTold .a t.trace = oscTold .a s.trace)

/-- An analog value command leaves the oscillator's frequency as it was told but for FM, its phase
offset but for PM, which replaces the earlier offset and does not add to it, and never touches the
other oscillator (spec/20_memory.md section 2, spec/41_analog_modulator.md section 5). -/
def Obligations.AnalogSamplesRetuneOnlyByType : Prop :=
  ∀ (i : Instr) (m : Word) (s t : State), (i = .aval m ∨ i = .asmp m) → exec i s = .next t →
    oscTold .b t.trace = oscTold .b s.trace ∧
    oscTold .a t.trace =
      (oscTold .a s.trace).map fun o =>
        { o with
          freq := if s.am.ty = .fm then fadd s.am.f (fmul s.am.k m) else o.freq
          phase := if s.am.ty = .pm then fmul s.am.k m else o.phase }

/-! ### What a command cannot read -/

/-- The AnalogModulator's commands neither read nor write the other units, the other port's answers or
the pacing counters; the BinaryModulator's neither read nor write the AnalogModulator, the cursor or
the other port's answers; `SYM` neither reads nor writes the modulators or any answer
(spec/00_scope.md section 1, spec/43_symbol_extractor.md section 2). The two runs compared are given
the same answers and the same NaNs (log entries 3 and 7). -/
def Obligations.UnitsAreIndependent : Prop :=
  (∀ (i : Instr) (s : State) (u : BinaryUnit) (x : SymbolUnit) (cs : List Word),
    isAinit i = true ∨ isAnalogValue i = true →
      exec i { s with bm := u, sx := x, oscB := cs } =
        mapNext (fun t => { t with bm := u, sx := x, oscB := cs }) (exec i s)) ∧
  (∀ (i : Instr) (s : State) (u : AnalogUnit) (x : SymbolUnit) (cs : List Word),
    isBinit i = true ∨ isBinaryValue i = true →
      exec i { s with am := u, sx := x, oscA := cs } =
        mapNext (fun t => { t with am := u, sx := x, oscA := cs }) (exec i s)) ∧
  (∀ (i : Instr) (s : State) (u : AnalogUnit) (v : BinaryUnit) (as bs : List Word), isSym i = true →
    exec i { s with am := u, bm := v, oscA := as, oscB := bs } =
      mapNext (fun t => { t with am := u, bm := v, oscA := as, oscB := bs }) (exec i s))

/-- No value command of the BinaryModulator reads `bm.K`: the stored parameter never reaches a result
or an event but through `bm.S` (spec/10_state.md section 3, spec/42_binary_modulator.md section 3).
The two runs compared are given the same answers and the same NaNs (log entries 3 and 7). -/
def Obligations.BinaryValueCommandsDoNotReadK : Prop :=
  ∀ (i : Instr) (s : State) (x : Word), isBinaryValue i = true →
    exec i { s with bm := { s.bm with k := x } } =
      mapNext (fun t => { t with bm := { t.bm with k := x } }) (exec i s)

/-- No command reads or writes `bm.ssc` or `bm.msps` (spec/10_state.md section 3). The two runs compared
are given the same answers and the same NaNs (log entries 3 and 7). -/
def Obligations.PacingCountersAreInert : Prop :=
  ∀ (i : Instr) (s : State) (x y : Nat),
    exec i { s with bm := { s.bm with ssc := x, msps := y } } =
      mapNext (fun t => { t with bm := { t.bm with ssc := x, msps := y } }) (exec i s)

/-- Idempotence: two consecutive `AVAL` in type AM, or `BVAL` in type ASK or PSK, with the same operand
and an oscillator held at a fixed phase return the same result (spec/41_analog_modulator.md section
5, spec/42_binary_modulator.md section 5). Where the formula's value is a NaN the two results are
equal only by the model's choice (log entry 7): the spec leaves open which NaN an operation gives,
and the model gives one operation the same NaN on the same operands. -/
def Obligations.HeldPhaseRepeatsTheResult : Prop :=
  (∀ (m c : Word) (s t : State), s.am.ty = .am →
    execAll [.aval m, .aval m] s = .next t → HeldPhase .a c (t.trace.drop s.trace.length) →
      ∃ v, t.results = s.results ++ [some v, some v]) ∧
  (∀ (sy : Byte) (c : Word) (s t : State), s.bm.ty = .ask ∨ s.bm.ty = .psk →
    execAll [.bval sy, .bval sy] s = .next t → HeldPhase .b c (t.trace.drop s.trace.length) →
      ∃ v, t.results = s.results ++ [some v, some v])

/-! ### Numerics -/

/-- R149: the laws of the clamps, of `fmod1` and of the quantiser. -/
def Obligations.SharedNumericLaws : Prop :=
  (∀ x hi : Word, isfinite x = true → isNaN hi = false → fgt (clampHi x hi) hi = false) ∧
  (∀ x hi : Word, isfinite x = true → isNaN hi = false →
    (fgt x hi = false → clampHi x hi = x) ∧ (fgt x hi = true → clampHi x hi = hi)) ∧
  (∀ x hi : Word, isfinite x = true → isNaN hi = false →
    clampHi (clampHi x hi) hi = clampHi x hi) ∧
  (∀ x lo hi : Word, isfinite x = true → isfinite lo = true → isNaN hi = false →
    fgt lo hi = false →
      isfinite (clampRange x lo hi) = true ∧ flt (clampRange x lo hi) lo = false ∧
        fgt (clampRange x lo hi) hi = false) ∧
  (∀ k : Word, isfinite k = true →
    isfinite (fmod1 (fabs k)) = true ∧ flt (fmod1 (fabs k)) fZero = false ∧
      flt (fmod1 (fabs k)) fOne = true) ∧
  (∀ (p q : Params) (v : Word), p.mvRes = q.mvRes → p.sampleBits = q.sampleBits →
    quantize p v = quantize q v)

/-- The AM depth wraps exactly: the stored value is the exact fractional part, and a request already in
[0, 1), its sign bit clear, is stored bit for bit (spec/41_analog_modulator.md section 2). -/
def Obligations.AmDepthWrapsExactly : Prop :=
  (∀ k : Word, isfinite k = true →
    key (fmod1 (fabs k)) = ((mag k % 2 ^ 149 : Nat) : Int)) ∧
  (∀ k : Word, isfinite k = true → signBit k = false → flt k fOne = true →
    fmod1 (fabs k) = k)

/-- The FM limit and the FSK limit are the same function of the carrier frequency, and halving and
quartering are exact for operands of ordinary size (spec/40_shared_numerics.md section 6; the
section marks this as general knowledge). -/
def Obligations.PowerOfTwoScalingIsExact : Prop :=
  (∀ f : Word, isfinite f = true → fdiv f fEight = fmul fEighth f) ∧
  (∀ x : Word, isfinite x = true → 2 ≤ expField x →
    key (fdiv x fTwo) * 2 = key x ∧ fdiv x fTwo = fmul fHalf x) ∧
  (∀ x : Word, isfinite x = true → 3 ≤ expField x → key (fdiv x fFour) * 4 = key x)

/-- With a unit carrier sample and a finite amplitude, the voltage a `BVAL` returns is finite and never
larger in magnitude than the amplitude (spec/42_binary_modulator.md section 4, under the premise
`UnitSample` of spec/20_memory.md section 2). -/
def Obligations.UnitSampleBoundsKeyedVoltage : Prop :=
  ∀ (sy : Byte) (s t : State), exec (.bval sy) s = .next t →
    UnitSample (s.sample .b) → isfinite s.bm.a = true →
      ∃ v, t.results = s.results ++ [some v] ∧ isfinite v = true ∧
        fgt (fabs v) (fabs s.bm.a) = false

/-! ### Invariants -/

/-- Every step keeps the machine's invariant (R40 for both modulators, the parameters' constraints, a
binding only through an INIT, a legal trace), from every state that has it
(spec/10_state.md section 5). -/
def Obligations.StepKeepsMachineInvariant : Prop :=
  ∀ s t : State, s.Inv → step s = .next t → t.Inv

/-- The machine's invariant holds after reset (spec/10_state.md section 5 and 7); that the parameters
meet R8 there is the model's choice, log entry 5. -/
def Obligations.ResetMeetsMachineInvariant : Prop :=
  State.reset.Inv

/-- R323: after a reset, one INIT with `osc = 1`, a recognised type and finite operands, the unit is
configured and bound, the invariants of R40 hold for it, and the last event is its `OscInit`. -/
def Obligations.BringUpReachesReadyState : Prop :=
  ∀ (i : Instr) (a f k : Word) (s : State) (rest : List HostMove), s.params.valid = true →
    isfinite a = true → isfinite f = true → isfinite k = true →
    s.inbox = .reset :: .command (encode i) :: rest →
      ((i = .ainitAm a f k true ∨ i = .ainitFm a f k true ∨ i = .ainitPm a f k true) →
        ∃ t, GoodRun 2 s t ∧ t.am.cfg = true ∧ t.am.oscBound = true ∧ t.am.Inv t.params ∧
          t.trace.getLast? = some (.init .a sine t.am.a t.am.f fZero fZero) ∧ t.inbox = rest) ∧
      ((i = .binitAsk a f k true ∨ i = .binitFsk a f k true ∨ i = .binitPsk a f k true) →
        ∃ t, GoodRun 2 s t ∧ t.bm.cfg = true ∧ t.bm.oscBound = true ∧ t.bm.Inv t.params ∧
          t.trace.getLast? = some (.init .b sine t.bm.a t.bm.f fZero fZero) ∧ t.inbox = rest)
end

