-- ==== Sys2Proof/Laws/Numerics.lean ====
section
/-! SUPPORT. The machine's arithmetic functions as the default record gives them, and the laws of
comparisons and clamps that do not depend on rounding (spec/40_shared_numerics.md R131, R139). -/

namespace Sys2Proof.Machine

/-! ### The record's functions -/

theorem fadd_eq (x y : Word) : fadd x y = ieeeAdd x y := rfl
theorem fsub_eq (x y : Word) : fsub x y = ieeeSub x y := rfl
theorem fmul_eq (x y : Word) : fmul x y = ieeeMul x y := rfl
theorem fdiv_eq (x y : Word) : fdiv x y = ieeeDiv x y := rfl
theorem fneg_eq (x : Word) : fneg x = x ^^^ 0x80000000#32 := rfl
theorem fabs_eq (x : Word) : fabs x = x &&& 0x7FFFFFFF#32 := rfl
theorem fmod1_eq (x : Word) : fmod1 x = ieeeMod1 x := rfl
theorem ftrunc_eq (x : Word) : ftrunc x = ieeeTrunc x := rfl
theorem isfinite_eq (x : Word) : isfinite x = decide (expField x ≠ 255) := rfl

/-- IEEE 754 `x > y` by exact values (R131). -/
theorem fgt_iff (x y : Word) :
    fgt x y = true ↔ isNaN x = false ∧ isNaN y = false ∧ key y < key x := by
  simp [fgt, numerics, ieee754, ieeeGt, and_assoc]

/-- IEEE 754 `x < y` by exact values (R131). -/
theorem flt_iff (x y : Word) :
    flt x y = true ↔ isNaN x = false ∧ isNaN y = false ∧ key x < key y := by
  simp [flt, numerics, ieee754, ieeeLt, and_assoc]

/-- `x > y` is `y < x` (R131). -/
theorem fgt_eq_flt (x y : Word) : fgt x y = flt y x := by
  rw [Bool.eq_iff_iff, fgt_iff, flt_iff]; tauto

/-- No FLOAT is above itself (R131). -/
@[simp] theorem fgt_self (x : Word) : fgt x x = false := by
  rw [← Bool.not_eq_true, fgt_iff]; omega

/-- No FLOAT is below itself (R131). -/
@[simp] theorem flt_self (x : Word) : flt x x = false := by
  rw [← fgt_eq_flt]; exact fgt_self x

/-- A finite FLOAT is no NaN (R97). -/
theorem isNaN_of_isfinite {x : Word} (h : isfinite x = true) : isNaN x = false := by
  simp_all [isfinite_eq, isNaN]

/-- A finite FLOAT is no infinity (R97). -/
theorem isInf_of_isfinite {x : Word} (h : isfinite x = true) : isInf x = false := by
  simp_all [isfinite_eq, isInf]

/-! ### Clamps -/

/-- A clamped value is not above its limit (R139). -/
@[simp] theorem fgt_clampHi (x hi : Word) : fgt (clampHi x hi) hi = false := by
  unfold clampHi; split <;> simp_all

/-- A clamped value is the limit or the request, bit for bit (R139). -/
theorem clampHi_eq_or (x hi : Word) : clampHi x hi = hi ∨ clampHi x hi = x := by
  unfold clampHi; split <;> simp

/-- A request that is not above the limit is stored as it is (R139). -/
theorem clampHi_of_not_gt {x hi : Word} (h : fgt x hi = false) : clampHi x hi = x := by
  simp [clampHi, h]

/-- A two-sided clamp answers one of its three operands (R139). -/
theorem clampRange_eq_or (x lo hi : Word) :
    clampRange x lo hi = lo ∨ clampRange x lo hi = hi ∨ clampRange x lo hi = x := by
  unfold clampRange; split
  · simp
  · split <;> simp

end Sys2Proof.Machine
end

