-- ==== Sys2Proof/Laws/State.lean ====
section
/-! SUPPORT. The fields of the state after each named operation of Machine/Ops.lean, one lemma per field
and operation. -/

namespace Sys2Proof.Machine

/-! ### `State.emit` -/

@[simp] theorem State.emit_params (s : State) (es : List OscEvent) :
    (s.emit es).params = s.params := rfl
@[simp] theorem State.emit_am (s : State) (es : List OscEvent) :
    (s.emit es).am = s.am := rfl
@[simp] theorem State.emit_bm (s : State) (es : List OscEvent) :
    (s.emit es).bm = s.bm := rfl
@[simp] theorem State.emit_sx (s : State) (es : List OscEvent) :
    (s.emit es).sx = s.sx := rfl
@[simp] theorem State.emit_trace (s : State) (es : List OscEvent) :
    (s.emit es).trace = s.trace ++ es := rfl
@[simp] theorem State.emit_results (s : State) (es : List OscEvent) :
    (s.emit es).results = s.results := rfl
@[simp] theorem State.emit_inbox (s : State) (es : List OscEvent) :
    (s.emit es).inbox = s.inbox := rfl
@[simp] theorem State.emit_oscA (s : State) (es : List OscEvent) :
    (s.emit es).oscA = s.oscA := rfl
@[simp] theorem State.emit_oscB (s : State) (es : List OscEvent) :
    (s.emit es).oscB = s.oscB := rfl
@[simp] theorem State.emit_draws (s : State) (es : List OscEvent) :
    (s.emit es).draws = s.draws := rfl

/-! ### `State.finish` -/

@[simp] theorem State.finish_params (s : State) (r : Option Word) :
    (s.finish r).params = s.params := rfl
@[simp] theorem State.finish_am (s : State) (r : Option Word) :
    (s.finish r).am = s.am := rfl
@[simp] theorem State.finish_bm (s : State) (r : Option Word) :
    (s.finish r).bm = s.bm := rfl
@[simp] theorem State.finish_sx (s : State) (r : Option Word) :
    (s.finish r).sx = s.sx := rfl
@[simp] theorem State.finish_trace (s : State) (r : Option Word) :
    (s.finish r).trace = s.trace := rfl
@[simp] theorem State.finish_results (s : State) (r : Option Word) :
    (s.finish r).results = s.results ++ [r] := rfl
@[simp] theorem State.finish_inbox (s : State) (r : Option Word) :
    (s.finish r).inbox = s.inbox := rfl
@[simp] theorem State.finish_oscA (s : State) (r : Option Word) :
    (s.finish r).oscA = s.oscA := rfl
@[simp] theorem State.finish_oscB (s : State) (r : Option Word) :
    (s.finish r).oscB = s.oscB := rfl
@[simp] theorem State.finish_draws (s : State) (r : Option Word) :
    (s.finish r).draws = s.draws := rfl

/-! ### `State.setAm` -/

@[simp] theorem State.setAm_params (s : State) (u : AnalogUnit) :
    (s.setAm u).params = s.params := rfl
@[simp] theorem State.setAm_am (s : State) (u : AnalogUnit) :
    (s.setAm u).am = u := rfl
@[simp] theorem State.setAm_bm (s : State) (u : AnalogUnit) :
    (s.setAm u).bm = s.bm := rfl
@[simp] theorem State.setAm_sx (s : State) (u : AnalogUnit) :
    (s.setAm u).sx = s.sx := rfl
@[simp] theorem State.setAm_trace (s : State) (u : AnalogUnit) :
    (s.setAm u).trace = s.trace := rfl
@[simp] theorem State.setAm_results (s : State) (u : AnalogUnit) :
    (s.setAm u).results = s.results := rfl
@[simp] theorem State.setAm_inbox (s : State) (u : AnalogUnit) :
    (s.setAm u).inbox = s.inbox := rfl
@[simp] theorem State.setAm_oscA (s : State) (u : AnalogUnit) :
    (s.setAm u).oscA = s.oscA := rfl
@[simp] theorem State.setAm_oscB (s : State) (u : AnalogUnit) :
    (s.setAm u).oscB = s.oscB := rfl
@[simp] theorem State.setAm_draws (s : State) (u : AnalogUnit) :
    (s.setAm u).draws = s.draws := rfl

/-! ### `State.setBm` -/

@[simp] theorem State.setBm_params (s : State) (u : BinaryUnit) :
    (s.setBm u).params = s.params := rfl
@[simp] theorem State.setBm_am (s : State) (u : BinaryUnit) :
    (s.setBm u).am = s.am := rfl
@[simp] theorem State.setBm_bm (s : State) (u : BinaryUnit) :
    (s.setBm u).bm = u := rfl
@[simp] theorem State.setBm_sx (s : State) (u : BinaryUnit) :
    (s.setBm u).sx = s.sx := rfl
@[simp] theorem State.setBm_trace (s : State) (u : BinaryUnit) :
    (s.setBm u).trace = s.trace := rfl
@[simp] theorem State.setBm_results (s : State) (u : BinaryUnit) :
    (s.setBm u).results = s.results := rfl
@[simp] theorem State.setBm_inbox (s : State) (u : BinaryUnit) :
    (s.setBm u).inbox = s.inbox := rfl
@[simp] theorem State.setBm_oscA (s : State) (u : BinaryUnit) :
    (s.setBm u).oscA = s.oscA := rfl
@[simp] theorem State.setBm_oscB (s : State) (u : BinaryUnit) :
    (s.setBm u).oscB = s.oscB := rfl
@[simp] theorem State.setBm_draws (s : State) (u : BinaryUnit) :
    (s.setBm u).draws = s.draws := rfl

/-! ### `State.setCursor` -/

@[simp] theorem State.setCursor_params (s : State) (c : BitVec 3) :
    (s.setCursor c).params = s.params := rfl
@[simp] theorem State.setCursor_am (s : State) (c : BitVec 3) :
    (s.setCursor c).am = s.am := rfl
@[simp] theorem State.setCursor_bm (s : State) (c : BitVec 3) :
    (s.setCursor c).bm = s.bm := rfl
@[simp] theorem State.setCursor_sx (s : State) (c : BitVec 3) :
    (s.setCursor c).sx = { cursor := c } := rfl
@[simp] theorem State.setCursor_trace (s : State) (c : BitVec 3) :
    (s.setCursor c).trace = s.trace := rfl
@[simp] theorem State.setCursor_results (s : State) (c : BitVec 3) :
    (s.setCursor c).results = s.results := rfl
@[simp] theorem State.setCursor_inbox (s : State) (c : BitVec 3) :
    (s.setCursor c).inbox = s.inbox := rfl
@[simp] theorem State.setCursor_oscA (s : State) (c : BitVec 3) :
    (s.setCursor c).oscA = s.oscA := rfl
@[simp] theorem State.setCursor_oscB (s : State) (c : BitVec 3) :
    (s.setCursor c).oscB = s.oscB := rfl
@[simp] theorem State.setCursor_draws (s : State) (c : BitVec 3) :
    (s.setCursor c).draws = s.draws := rfl

/-! ### `State.setInbox` -/

@[simp] theorem State.setInbox_params (s : State) (rest : List HostMove) :
    (s.setInbox rest).params = s.params := rfl
@[simp] theorem State.setInbox_am (s : State) (rest : List HostMove) :
    (s.setInbox rest).am = s.am := rfl
@[simp] theorem State.setInbox_bm (s : State) (rest : List HostMove) :
    (s.setInbox rest).bm = s.bm := rfl
@[simp] theorem State.setInbox_sx (s : State) (rest : List HostMove) :
    (s.setInbox rest).sx = s.sx := rfl
@[simp] theorem State.setInbox_trace (s : State) (rest : List HostMove) :
    (s.setInbox rest).trace = s.trace := rfl
@[simp] theorem State.setInbox_results (s : State) (rest : List HostMove) :
    (s.setInbox rest).results = s.results := rfl
@[simp] theorem State.setInbox_inbox (s : State) (rest : List HostMove) :
    (s.setInbox rest).inbox = rest := rfl
@[simp] theorem State.setInbox_oscA (s : State) (rest : List HostMove) :
    (s.setInbox rest).oscA = s.oscA := rfl
@[simp] theorem State.setInbox_oscB (s : State) (rest : List HostMove) :
    (s.setInbox rest).oscB = s.oscB := rfl
@[simp] theorem State.setInbox_draws (s : State) (rest : List HostMove) :
    (s.setInbox rest).draws = s.draws := rfl

/-! ### `State.takeSample` -/

@[simp] theorem State.takeSample_params (s : State) (p : OscPort) :
    (s.takeSample p).params = s.params := rfl
@[simp] theorem State.takeSample_am (s : State) (p : OscPort) :
    (s.takeSample p).am = s.am := rfl
@[simp] theorem State.takeSample_bm (s : State) (p : OscPort) :
    (s.takeSample p).bm = s.bm := rfl
@[simp] theorem State.takeSample_sx (s : State) (p : OscPort) :
    (s.takeSample p).sx = s.sx := rfl
@[simp] theorem State.takeSample_trace (s : State) (p : OscPort) :
    (s.takeSample p).trace = s.trace ++ [.get p (s.sample p)] := rfl
@[simp] theorem State.takeSample_results (s : State) (p : OscPort) :
    (s.takeSample p).results = s.results := rfl
@[simp] theorem State.takeSample_inbox (s : State) (p : OscPort) :
    (s.takeSample p).inbox = s.inbox := rfl
@[simp] theorem State.takeSample_draws (s : State) (p : OscPort) :
    (s.takeSample p).draws = s.draws + 1 := rfl

/-! ### `State.hostReset` -/

@[simp] theorem State.hostReset_params (s : State) :
    (s.hostReset).params = s.params := rfl
@[simp] theorem State.hostReset_am (s : State) :
    (s.hostReset).am = AnalogUnit.reset := rfl
@[simp] theorem State.hostReset_bm (s : State) :
    (s.hostReset).bm = BinaryUnit.reset := rfl
@[simp] theorem State.hostReset_sx (s : State) :
    (s.hostReset).sx = SymbolUnit.reset := rfl
@[simp] theorem State.hostReset_trace (s : State) :
    (s.hostReset).trace = s.trace := rfl
@[simp] theorem State.hostReset_results (s : State) :
    (s.hostReset).results = s.results := rfl
@[simp] theorem State.hostReset_inbox (s : State) :
    (s.hostReset).inbox = s.inbox := rfl
@[simp] theorem State.hostReset_oscA (s : State) :
    (s.hostReset).oscA = s.oscA := rfl
@[simp] theorem State.hostReset_oscB (s : State) :
    (s.hostReset).oscB = s.oscB := rfl
@[simp] theorem State.hostReset_draws (s : State) :
    (s.hostReset).draws = s.draws := rfl

/-! ### The scripts and the next answer -/

@[simp] theorem State.script_a (s : State) : s.script .a = s.oscA := rfl
@[simp] theorem State.script_b (s : State) : s.script .b = s.oscB := rfl
@[simp] theorem State.takeSample_oscA_a (s : State) : (s.takeSample .a).oscA = s.oscA.tail := rfl
@[simp] theorem State.takeSample_oscA_b (s : State) : (s.takeSample .b).oscA = s.oscA := rfl
@[simp] theorem State.takeSample_oscB_a (s : State) : (s.takeSample .a).oscB = s.oscB := rfl
@[simp] theorem State.takeSample_oscB_b (s : State) : (s.takeSample .b).oscB = s.oscB.tail := rfl

@[simp] theorem State.emit_script (s : State) (es : List OscEvent) (p : OscPort) :
    (s.emit es).script p = s.script p := by cases p <;> rfl
@[simp] theorem State.emit_sample (s : State) (es : List OscEvent) (p : OscPort) :
    (s.emit es).sample p = s.sample p := by cases p <;> rfl
@[simp] theorem State.finish_script (s : State) (r : Option Word) (p : OscPort) :
    (s.finish r).script p = s.script p := by cases p <;> rfl
@[simp] theorem State.finish_sample (s : State) (r : Option Word) (p : OscPort) :
    (s.finish r).sample p = s.sample p := by cases p <;> rfl
@[simp] theorem State.setAm_script (s : State) (u : AnalogUnit) (p : OscPort) :
    (s.setAm u).script p = s.script p := by cases p <;> rfl
@[simp] theorem State.setAm_sample (s : State) (u : AnalogUnit) (p : OscPort) :
    (s.setAm u).sample p = s.sample p := by cases p <;> rfl
@[simp] theorem State.setBm_script (s : State) (u : BinaryUnit) (p : OscPort) :
    (s.setBm u).script p = s.script p := by cases p <;> rfl
@[simp] theorem State.setBm_sample (s : State) (u : BinaryUnit) (p : OscPort) :
    (s.setBm u).sample p = s.sample p := by cases p <;> rfl
@[simp] theorem State.setCursor_script (s : State) (c : BitVec 3) (p : OscPort) :
    (s.setCursor c).script p = s.script p := by cases p <;> rfl
@[simp] theorem State.setCursor_sample (s : State) (c : BitVec 3) (p : OscPort) :
    (s.setCursor c).sample p = s.sample p := by cases p <;> rfl
@[simp] theorem State.setInbox_script (s : State) (rest : List HostMove) (p : OscPort) :
    (s.setInbox rest).script p = s.script p := by cases p <;> rfl
@[simp] theorem State.setInbox_sample (s : State) (rest : List HostMove) (p : OscPort) :
    (s.setInbox rest).sample p = s.sample p := by cases p <;> rfl
@[simp] theorem State.hostReset_script (s : State) (p : OscPort) :
    (s.hostReset).script p = s.script p := by cases p <;> rfl
@[simp] theorem State.hostReset_sample (s : State) (p : OscPort) :
    (s.hostReset).sample p = s.sample p := by cases p <;> rfl

/-- Taking a sample uses up the answer of its own port. -/
@[simp] theorem State.takeSample_script_self (s : State) (p : OscPort) :
    (s.takeSample p).script p = (s.script p).tail := by cases p <;> rfl

/-- Taking a sample leaves the other port's answers alone. -/
theorem State.takeSample_script_other (s : State) {p q : OscPort} (h : q ≠ p) :
    (s.takeSample p).script q = s.script q := by
  cases p <;> cases q <;> first | rfl | exact absurd rfl h

/-- An answer fixed for the next `OscGet` is the one it gives. -/
theorem State.sample_of_script {s : State} {p : OscPort} {c : Word} {cs : List Word}
    (h : s.script p = c :: cs) : s.sample p = c := by
  simp [State.sample, h]

end Sys2Proof.Machine
end

