-- ==== Sys2Proof/Laws/Ops.lean ====
section
/-! SUPPORT. What the shared operations can do: when an operation built with them ends in a next state,
and with which one. Proofs cite these instead of unfolding the operations. -/

namespace Sys2Proof.Machine

/-! ### `andThen` -/

section
variable {α β : Type} (k : α → Host.Outcome β Fault Refusal)

@[simp] theorem andThen_next (x : α) : andThen (.next x) k = k x := rfl
@[simp] theorem andThen_fault (r : Fault) : andThen (.fault r) k = .fault r := rfl
@[simp] theorem andThen_refused (r : Refusal) : andThen (.refused r) k = .refused r := rfl

variable {k} {o : Host.Outcome α Fault Refusal}

/-- A composed operation ends ok exactly when both parts do. -/
theorem andThen_eq_next {y : β} : andThen o k = .next y ↔ ∃ x, o = .next x ∧ k x = .next y := by
  cases o <;> simp

/-- A composed operation faults in its first or in its second part. -/
theorem andThen_eq_fault {r : Fault} :
    andThen o k = .fault r ↔ o = .fault r ∨ ∃ x, o = .next x ∧ k x = .fault r := by
  cases o <;> simp

/-- A composed operation is refused in its first or in its second part. -/
theorem andThen_eq_refused {r : Refusal} :
    andThen o k = .refused r ↔ o = .refused r ∨ ∃ x, o = .next x ∧ k x = .refused r := by
  cases o <;> simp

end

/-- Two next outcomes are equal when their states are, the answered one written first. -/
theorem next_eq_next {α : Type} {x y : α} :
    (Host.Outcome.next x : Host.Outcome α Fault Refusal) = .next y ↔ y = x := by
  rw [Host.Outcome.next.injEq, eq_comm]

/-! ### Guards -/

section
variable {α : Type} {o : Host.Outcome α Fault Refusal} {y : α}

/-- An admitted FLOAT operand is finite (R138). -/
theorem admitFinite_eq_next {x : Word} :
    admitFinite x o = .next y ↔ isfinite x = true ∧ o = .next y := by
  unfold admitFinite; split <;> simp_all

/-- The admitted operands of an INIT are finite (R138). -/
theorem admitInit_eq_next {a f k : Word} :
    admitInit a f k o = .next y ↔
      (isfinite a = true ∧ isfinite f = true ∧ isfinite k = true) ∧ o = .next y := by
  unfold admitInit; split <;> simp_all

/-- An admitted symbol is 0 or 1 (R209). -/
theorem admitSymbol_eq_next {sy : Byte} :
    admitSymbol sy o = .next y ↔ sy.toNat ≤ 1 ∧ o = .next y := by
  unfold admitSymbol; split <;> simp_all

/-- A command past this guard is on a configured unit (R208). -/
theorem requireConfigured_eq_next {cfg : Bool} :
    requireConfigured cfg o = .next y ↔ cfg = true ∧ o = .next y := by
  unfold requireConfigured; split <;> simp_all

/-- A command past this guard has an oscillator bound (R207). -/
theorem requireOscillator_eq_next {bound : Bool} :
    requireOscillator bound o = .next y ↔ bound = true ∧ o = .next y := by
  unfold requireOscillator; split <;> simp_all

variable {r : Refusal} {q : Fault}

/-- A refusal past the admission of a FLOAT operand (R138). -/
theorem admitFinite_eq_refused {x : Word} :
    admitFinite x o = .refused r ↔
      (isfinite x = false ∧ r = .nonFiniteOperand) ∨ (isfinite x = true ∧ o = .refused r) := by
  unfold admitFinite; cases isfinite x <;> simp [eq_comm (a := r)]

/-- A refusal past the admission of an INIT's operands (R138). -/
theorem admitInit_eq_refused {a f k : Word} :
    admitInit a f k o = .refused r ↔
      (¬ (isfinite a = true ∧ isfinite f = true ∧ isfinite k = true) ∧ r = .nonFiniteOperand) ∨
        ((isfinite a = true ∧ isfinite f = true ∧ isfinite k = true) ∧ o = .refused r) := by
  unfold admitInit
  cases isfinite a <;> cases isfinite f <;> cases isfinite k <;> simp [eq_comm (a := r)]

/-- A refusal past the admission of a symbol (R209). -/
theorem admitSymbol_eq_refused {sy : Byte} :
    admitSymbol sy o = .refused r ↔
      (2 ≤ sy.toNat ∧ r = .symbolOutOfDomain) ∨ (sy.toNat ≤ 1 ∧ o = .refused r) := by
  unfold admitSymbol
  by_cases h : sy.toNat ≤ 1
  · rw [if_pos h]; simp [h, show ¬ 2 ≤ sy.toNat by omega]
  · rw [if_neg h]; simp [h, show 2 ≤ sy.toNat by omega, eq_comm (a := r)]

/-- A refusal past the test of `cfg`: the test itself refuses nothing. -/
theorem requireConfigured_eq_refused {cfg : Bool} :
    requireConfigured cfg o = .refused r ↔ cfg = true ∧ o = .refused r := by
  unfold requireConfigured; cases cfg <;> simp

/-- A refusal past the test of `osc_bound`: the test itself refuses nothing. -/
theorem requireOscillator_eq_refused {bound : Bool} :
    requireOscillator bound o = .refused r ↔ bound = true ∧ o = .refused r := by
  unfold requireOscillator; cases bound <;> simp

/-- A fault past the admission of a FLOAT operand: the admission itself raises none. -/
theorem admitFinite_eq_fault {x : Word} :
    admitFinite x o = .fault q ↔ isfinite x = true ∧ o = .fault q := by
  unfold admitFinite; cases isfinite x <;> simp

/-- A fault past the admission of an INIT's operands: the admission itself raises none. -/
theorem admitInit_eq_fault {a f k : Word} :
    admitInit a f k o = .fault q ↔
      (isfinite a = true ∧ isfinite f = true ∧ isfinite k = true) ∧ o = .fault q := by
  unfold admitInit
  cases isfinite a <;> cases isfinite f <;> cases isfinite k <;> simp

/-- A fault past the admission of a symbol: the admission itself raises none. -/
theorem admitSymbol_eq_fault {sy : Byte} :
    admitSymbol sy o = .fault q ↔ sy.toNat ≤ 1 ∧ o = .fault q := by
  unfold admitSymbol
  by_cases h : sy.toNat ≤ 1
  · rw [if_pos h]; simp [h]
  · rw [if_neg h]; simp [h]

/-- A fault at or past the test of `cfg` (R208). -/
theorem requireConfigured_eq_fault {cfg : Bool} :
    requireConfigured cfg o = .fault q ↔
      (cfg = false ∧ q = .notConfigured) ∨ (cfg = true ∧ o = .fault q) := by
  unfold requireConfigured; cases cfg <;> simp [eq_comm (a := q)]

/-- A fault at or past the test of `osc_bound` (R207). -/
theorem requireOscillator_eq_fault {bound : Bool} :
    requireOscillator bound o = .fault q ↔
      (bound = false ∧ q = .noOscillator) ∨ (bound = true ∧ o = .fault q) := by
  unfold requireOscillator; cases bound <;> simp [eq_comm (a := q)]

end

/-! ### The ends of value commands -/

/-- The end of a `GetSample` raises no fault. -/
theorem returnSample_ne_fault (r : Word × State) (q : Fault) : returnSample r ≠ .fault q := by
  unfold returnSample; split <;> simp

/-- The end of a `GetSample` refuses as the quantiser does (R146). -/
theorem returnSample_eq_refused {r : Word × State} {x : Refusal} :
    returnSample r = .refused x ↔ quantize r.2.params r.1 = none ∧ x = .quantizerRange := by
  unfold returnSample
  cases quantize r.2.params r.1 <;> simp [eq_comm (a := x)]

/-- A `GetValue` that reached its value ends ok (R100). -/
theorem returnVolts_eq (r : Word × State) : returnVolts r = .next (r.2.finish (some r.1)) := rfl

/-- A `GetSample` that reached its value ends ok exactly when the quantiser gives a sample (R146,
R148). -/
theorem returnSample_eq_next {r : Word × State} {t : State} :
    returnSample r = .next t ↔
      ∃ q, quantize r.2.params r.1 = some q ∧
        t = r.2.finish (some (sampleWord r.2.params q)) := by
  cases h : quantize r.2.params r.1 <;> simp [returnSample, h, eq_comm]

/-- The quantiser gives a sample exactly when the quotient is finite and its truncation is in the range
of the sample type, and then it is the truncation (R146). -/
theorem quantize_eq_some {p : Params} {v : Word} {q : Int} :
    quantize p v = some q ↔
      isfinite (fdiv v p.mvRes) = true ∧ q = ftrunc (fdiv v p.mvRes) ∧ sampleMin p ≤ q ∧
        q ≤ sampleMax p := by
  unfold quantize
  split
  · split
    · constructor
      · simp
      · rintro ⟨_, rfl, h1, h2⟩; omega
    · constructor
      · intro h; simp only [Option.some.injEq] at h; subst h; refine ⟨‹_›, rfl, ?_, ?_⟩ <;> omega
      · rintro ⟨_, rfl, _⟩; rfl
  · simp_all

end Sys2Proof.Machine
end

