-- ==== Sys2Proof/Laws/Commands.lean ====
section
/-! SUPPORT. What a command can do, said once per shared operation of the units: each lemma gives all
the ways the operation ends ok. The claims about commands are derived from these. -/

namespace Sys2Proof.Machine

/-! ### The AnalogModulator -/

/-- The state an `AINIT` leaves (R161). -/
def afterAinit (ty : AnalogType) (newK a f : Word) (osc : Bool) (s : State) : State :=
  ((s.setAm
    { cfg := true
      ty := ty
      a := clampAmplitude s.params a
      f := clampFrequency s.params f
      k := newK
      oscBound := s.am.oscBound || osc }).emit
    (initEvents .a osc (clampAmplitude s.params a) (clampFrequency s.params f))).finish none

/-- An `AINIT` ends ok exactly on finite operands (R161). -/
theorem analogInit_eq_next {ty : AnalogType} {newK a f k : Word} {osc : Bool} {s t : State} :
    analogInit ty newK a f k osc s = .next t ↔
      (isfinite a = true ∧ isfinite f = true ∧ isfinite k = true) ∧
        t = afterAinit ty newK a f osc s := by
  rw [analogInit, admitInit_eq_next, next_eq_next, afterAinit]

/-- How `AnalogValue` ends ok (R166): the unrecognised type gives `+0.0` and changes nothing; a
recognised one has a finite message and a bound oscillator and runs its branch. -/
theorem analogValue_eq_next {m : Word} {s : State} {r : Word × State} :
    analogValue m s = .next r ↔
      s.am.cfg = true ∧
        ((s.am.ty = .u3 ∧ r = (fZero, s)) ∨
          (isfinite m = true ∧ s.am.oscBound = true ∧
            ((s.am.ty = .am ∧ r = valueAm m s) ∨ (s.am.ty = .fm ∧ r = valueFm m s) ∨
              (s.am.ty = .pm ∧ r = valuePm m s)))) := by
  cases h : s.am.ty <;>
    simp [analogValue, analogAdmit, requireConfigured_eq_next, admitFinite_eq_next,
      requireOscillator_eq_next, h, next_eq_next, -Host.Outcome.next.injEq]

/-- An `AINIT` is refused exactly on a non-finite operand (R138). -/
theorem analogInit_eq_refused {ty : AnalogType} {newK a f k : Word} {osc : Bool} {s : State}
    {x : Refusal} :
    analogInit ty newK a f k osc s = .refused x ↔
      ¬ (isfinite a = true ∧ isfinite f = true ∧ isfinite k = true) ∧ x = .nonFiniteOperand := by
  simp [analogInit, admitInit_eq_refused]

/-- An `AINIT` raises no fault (R262). -/
theorem analogInit_ne_fault {ty : AnalogType} {newK a f k : Word} {osc : Bool} {s : State}
    {q : Fault} : analogInit ty newK a f k osc s ≠ .fault q := by
  simp [analogInit, admitInit_eq_fault]

/-- How `AnalogValue` is refused (R138, R166). -/
theorem analogValue_eq_refused {m : Word} {s : State} {x : Refusal} :
    analogValue m s = .refused x ↔
      (s.am.cfg = true ∧ s.am.ty ≠ .u3 ∧ isfinite m = false) ∧ x = .nonFiniteOperand := by
  cases h : s.am.ty <;>
    simp [analogValue, analogAdmit, requireConfigured_eq_refused, admitFinite_eq_refused,
      requireOscillator_eq_refused, h, and_assoc]

/-- How `AnalogValue` faults (R166, R207, R208). -/
theorem analogValue_eq_fault {m : Word} {s : State} {q : Fault} :
    analogValue m s = .fault q ↔
      (s.am.cfg = false ∧ q = .notConfigured) ∨
        ((s.am.cfg = true ∧ s.am.ty ≠ .u3 ∧ isfinite m = true ∧ s.am.oscBound = false) ∧
          q = .noOscillator) := by
  cases h : s.am.ty <;>
    simp [analogValue, analogAdmit, requireConfigured_eq_fault, admitFinite_eq_fault,
      requireOscillator_eq_fault, h, and_assoc]

/-! ### The BinaryModulator -/

/-- The state a `BINIT` leaves (R201). -/
def afterBinit (ty : BinaryType) (newK newS a f : Word) (osc : Bool) (s : State) : State :=
  ((s.setBm
    { cfg := true
      ty := ty
      a := clampAmplitude s.params a
      f := clampFrequency s.params f
      k := newK
      s := newS
      oscBound := s.bm.oscBound || osc
      ssc := s.bm.ssc
      msps := s.bm.msps }).emit
    (initEvents .b osc (clampAmplitude s.params a) (clampFrequency s.params f))).finish none

/-- A `BINIT` ends ok exactly on finite operands (R201). -/
theorem binaryInit_eq_next {ty : BinaryType} {newK newS a f k : Word} {osc : Bool} {s t : State} :
    binaryInit ty newK newS a f k osc s = .next t ↔
      (isfinite a = true ∧ isfinite f = true ∧ isfinite k = true) ∧
        t = afterBinit ty newK newS a f osc s := by
  rw [binaryInit, admitInit_eq_next, next_eq_next, afterBinit]

/-- How `BinaryValue` ends ok (R206): the unrecognised type gives `+0.0` and changes nothing; a
recognised one has a symbol in the domain and a bound oscillator and runs its branch. -/
theorem binaryValue_eq_next {sy : Byte} {s : State} {r : Word × State} :
    binaryValue sy s = .next r ↔
      s.bm.cfg = true ∧
        ((s.bm.ty = .u3 ∧ r = (fZero, s)) ∨
          (sy.toNat ≤ 1 ∧ s.bm.oscBound = true ∧
            ((s.bm.ty = .ask ∧ r = valueAsk sy s) ∨ (s.bm.ty = .fsk ∧ r = valueFsk sy s) ∨
              (s.bm.ty = .psk ∧ r = valuePsk sy s)))) := by
  cases h : s.bm.ty <;>
    simp [binaryValue, binaryAdmit, requireConfigured_eq_next, admitSymbol_eq_next,
      requireOscillator_eq_next, h, next_eq_next, -Host.Outcome.next.injEq]

/-- A `BINIT` is refused exactly on a non-finite operand (R138). -/
theorem binaryInit_eq_refused {ty : BinaryType} {newK newS a f k : Word} {osc : Bool} {s : State}
    {x : Refusal} :
    binaryInit ty newK newS a f k osc s = .refused x ↔
      ¬ (isfinite a = true ∧ isfinite f = true ∧ isfinite k = true) ∧ x = .nonFiniteOperand := by
  simp [binaryInit, admitInit_eq_refused]

/-- A `BINIT` raises no fault (R262). -/
theorem binaryInit_ne_fault {ty : BinaryType} {newK newS a f k : Word} {osc : Bool} {s : State}
    {q : Fault} : binaryInit ty newK newS a f k osc s ≠ .fault q := by
  simp [binaryInit, admitInit_eq_fault]

/-- How `BinaryValue` is refused (R206, R209). -/
theorem binaryValue_eq_refused {sy : Byte} {s : State} {x : Refusal} :
    binaryValue sy s = .refused x ↔
      (s.bm.cfg = true ∧ s.bm.ty ≠ .u3 ∧ 2 ≤ sy.toNat) ∧ x = .symbolOutOfDomain := by
  cases h : s.bm.ty <;>
    simp [binaryValue, binaryAdmit, requireConfigured_eq_refused, admitSymbol_eq_refused,
      requireOscillator_eq_refused, h, and_assoc]

/-- How `BinaryValue` faults (R206, R207, R208). -/
theorem binaryValue_eq_fault {sy : Byte} {s : State} {q : Fault} :
    binaryValue sy s = .fault q ↔
      (s.bm.cfg = false ∧ q = .notConfigured) ∨
        ((s.bm.cfg = true ∧ s.bm.ty ≠ .u3 ∧ sy.toNat ≤ 1 ∧ s.bm.oscBound = false) ∧
          q = .noOscillator) := by
  cases h : s.bm.ty <;>
    simp [binaryValue, binaryAdmit, requireConfigured_eq_fault, admitSymbol_eq_fault,
      requireOscillator_eq_fault, h, and_assoc]

/-! ### All commands -/

/-- What each command can do, in one statement: how `exec` ends ok. -/
theorem exec_eq_next {i : Instr} {s t : State} :
    exec i s = .next t ↔
      match i with
      | .ainitAm a f k osc =>
        (isfinite a = true ∧ isfinite f = true ∧ isfinite k = true) ∧
          t = afterAinit .am (fmod1 (fabs k)) a f osc s
      | .ainitFm a f k osc =>
        (isfinite a = true ∧ isfinite f = true ∧ isfinite k = true) ∧
          t = afterAinit .fm (clampHi k (fdiv (clampFrequency s.params f) fEight)) a f osc s
      | .ainitPm a f k osc =>
        (isfinite a = true ∧ isfinite f = true ∧ isfinite k = true) ∧
          t = afterAinit .pm (clampHi k s.params.pi4) a f osc s
      | .ainitU3 a f k osc =>
        (isfinite a = true ∧ isfinite f = true ∧ isfinite k = true) ∧
          t = afterAinit .u3 s.am.k a f osc s
      | .aval m => ∃ r, analogValue m s = .next r ∧ t = r.2.finish (some r.1)
      | .asmp m =>
        ∃ r, analogValue m s = .next r ∧ ∃ q, quantize r.2.params r.1 = some q ∧
          t = r.2.finish (some (sampleWord r.2.params q))
      | .binitAsk a f k osc =>
        (isfinite a = true ∧ isfinite f = true ∧ isfinite k = true) ∧
          t = afterBinit .ask (clampHi k (fmul fQuarter (clampAmplitude s.params a))) s.bm.s a f osc s
      | .binitFsk a f k osc =>
        (isfinite a = true ∧ isfinite f = true ∧ isfinite k = true) ∧
          t = afterBinit .fsk (fskShift s.params f k) (fdiv (fskShift s.params f k) fTwo) a f osc s
      | .binitPsk a f k osc =>
        (isfinite a = true ∧ isfinite f = true ∧ isfinite k = true) ∧
          t = afterBinit .psk (clampRange k fZero s.params.pi2) s.bm.s a f osc s
      | .binitU3 a f k osc =>
        (isfinite a = true ∧ isfinite f = true ∧ isfinite k = true) ∧
          t = afterBinit .u3 s.bm.k s.bm.s a f osc s
      | .bval sy => ∃ r, binaryValue sy s = .next r ∧ t = r.2.finish (some r.1)
      | .bsmp sy =>
        ∃ r, binaryValue sy s = .next r ∧ ∃ q, quantize r.2.params r.1 = some q ∧
          t = r.2.finish (some (sampleWord r.2.params q))
      | .sym b =>
        t = (s.setCursor (s.sx.cursor + 1#3)).finish
          (some (BitVec.zeroExtend 32 (BitVec.ofBool (cursorBit b s.sx.cursor)))) := by
  cases i with
  | ainitAm a f k osc => exact analogInit_eq_next
  | ainitFm a f k osc => exact analogInit_eq_next
  | ainitPm a f k osc => exact analogInit_eq_next
  | ainitU3 a f k osc => exact analogInit_eq_next
  | aval m => simp only [exec, execAval, andThen_eq_next, returnVolts_eq, next_eq_next]
  | asmp m => simp only [exec, execAsmp, andThen_eq_next, returnSample_eq_next]
  | binitAsk a f k osc => exact binaryInit_eq_next
  | binitFsk a f k osc => exact binaryInit_eq_next
  | binitPsk a f k osc => exact binaryInit_eq_next
  | binitU3 a f k osc => exact binaryInit_eq_next
  | bval sy => simp only [exec, execBval, andThen_eq_next, returnVolts_eq, next_eq_next]
  | bsmp sy => simp only [exec, execBsmp, andThen_eq_next, returnSample_eq_next]
  | sym b => exact next_eq_next

/-! ### The step -/

/-- What a step that ends ok did (R61, R70, R300): nothing was pending, or the host's reset was made,
or a frame was decoded to a command and the command ended ok. -/
theorem step_eq_next {s t : State} :
    step s = .next t ↔
      (s.inbox = [] ∧ t = s) ∨
        (∃ rest, s.inbox = .reset :: rest ∧ t = (s.setInbox rest).hostReset) ∨
        (∃ fr rest i, s.inbox = .command fr :: rest ∧ decode fr = .command i ∧
          exec i (s.setInbox rest) = .next t) := by
  unfold step
  split
  · rename_i h; simp [h, next_eq_next, -Host.Outcome.next.injEq]
  · rename_i rest h; simp [h, next_eq_next, -Host.Outcome.next.injEq]
  · rename_i fr rest h
    split
    · rename_i i hd; simp [h, hd]
    · rename_i hd; simp [h, hd]

end Sys2Proof.Machine
end

