-- ==== Sys2Proof/Laws/Decode.lean ====
section
/-! SUPPORT. The fields of a frame put together by the encoder (spec/30_encoding.md R91, R93). -/

namespace Sys2Proof

variable (arg8 : Byte) (osc : Bool) (cmd : Byte) (w1 w2 w3 : Word)

@[simp] theorem makeFrame_w1 : (makeFrame arg8 osc cmd w1 w2 w3).w1 = w1 := rfl
@[simp] theorem makeFrame_w2 : (makeFrame arg8 osc cmd w1 w2 w3).w2 = w2 := rfl
@[simp] theorem makeFrame_w3 : (makeFrame arg8 osc cmd w1 w2 w3).w3 = w3 := rfl

/-- Every bit of the control word, by the field it lies in (R91). -/
theorem makeFrame_w0_bit (n : Nat) :
    (makeFrame arg8 osc cmd w1 w2 w3).w0.getLsbD n =
      if n < 8 then cmd.getLsbD n
      else if n = 8 then osc
      else if n < 16 then false
      else arg8.getLsbD (n - 16) := by
  have h8 : ∀ n, 8 ≤ n → arg8.getLsbD n = false := fun n h => BitVec.getLsbD_of_ge arg8 n h
  simp only [makeFrame, BitVec.getLsbD_append, BitVec.getLsbD_ofBool, BitVec.getLsbD_zero]
  by_cases h1 : n < 8
  · simp [h1]
  · by_cases h2 : n = 8
    · simp [h2]
    · have h3 : ¬ n - 8 < 1 := by omega
      have h4 : n - 8 ≠ 0 := by omega
      by_cases h5 : n < 16
      · have h6 : n - 8 - 1 < 7 := by omega
        simp [h1, h2, h3, h5, h6]
      · have h6 : ¬ n - 8 - 1 < 7 := by omega
        rw [show n - 8 - 1 - 7 = n - 16 by omega]
        by_cases h7 : n - 16 < 8
        · simp [h1, h2, h3, h5, h6, h7]
        · simp [h1, h2, h3, h5, h6, h7, h8 (n - 16) (by omega)]

@[simp] theorem makeFrame_rsv1 : (makeFrame arg8 osc cmd w1 w2 w3).rsv1 = 0#8 := by
  apply BitVec.eq_of_getLsbD_eq
  intro i h
  have := BitVec.getLsbD_of_ge arg8 (24 + i - 16) (by omega)
  rw [Frame.rsv1, BitVec.getLsbD_extractLsb', makeFrame_w0_bit, this, if_neg (by omega),
    if_neg (by omega), if_neg (by omega)]
  simp

@[simp] theorem makeFrame_rsv0 : (makeFrame arg8 osc cmd w1 w2 w3).rsv0 = 0#7 := by
  apply BitVec.eq_of_getLsbD_eq
  intro i h
  rw [Frame.rsv0, BitVec.getLsbD_extractLsb', makeFrame_w0_bit, if_neg (by omega),
    if_neg (by omega), if_pos (by omega)]
  simp

@[simp] theorem makeFrame_arg8 : (makeFrame arg8 osc cmd w1 w2 w3).arg8 = arg8 := by
  apply BitVec.eq_of_getLsbD_eq
  intro i h
  rw [Frame.arg8, BitVec.getLsbD_extractLsb', makeFrame_w0_bit, if_neg (by omega),
    if_neg (by omega), if_neg (by omega), Nat.add_sub_cancel_left]
  simp [h]

@[simp] theorem makeFrame_osc : (makeFrame arg8 osc cmd w1 w2 w3).osc = osc := by
  rw [Frame.osc, makeFrame_w0_bit, if_neg (by omega), if_pos rfl]

/-- A field of the command code is read from the code itself (R93). -/
theorem makeFrame_cmd_field (start len : Nat) (h : start + len ≤ 8) :
    (makeFrame arg8 osc cmd w1 w2 w3).w0.extractLsb' start len = cmd.extractLsb' start len := by
  apply BitVec.eq_of_getLsbD_eq
  intro i hi
  rw [BitVec.getLsbD_extractLsb', BitVec.getLsbD_extractLsb', makeFrame_w0_bit,
    if_pos (by omega)]

@[simp] theorem makeFrame_z :
    (makeFrame arg8 osc cmd w1 w2 w3).z = cmd.extractLsb' 6 2 :=
  makeFrame_cmd_field arg8 osc cmd w1 w2 w3 6 2 (by decide)

@[simp] theorem makeFrame_unit :
    (makeFrame arg8 osc cmd w1 w2 w3).unit = cmd.extractLsb' 4 2 :=
  makeFrame_cmd_field arg8 osc cmd w1 w2 w3 4 2 (by decide)

@[simp] theorem makeFrame_op :
    (makeFrame arg8 osc cmd w1 w2 w3).op = cmd.extractLsb' 2 2 :=
  makeFrame_cmd_field arg8 osc cmd w1 w2 w3 2 2 (by decide)

@[simp] theorem makeFrame_ty :
    (makeFrame arg8 osc cmd w1 w2 w3).ty = cmd.extractLsb' 0 2 :=
  makeFrame_cmd_field arg8 osc cmd w1 w2 w3 0 2 (by decide)

/-- Under the mask of the opcode map only the command code is left (R94). -/
theorem makeFrame_masked :
    (makeFrame arg8 osc cmd w1 w2 w3).w0 &&& 0xFF00FEFF#32 = cmd.zeroExtend 32 := by
  apply BitVec.eq_of_getLsbD_eq
  intro i hi
  have h8 : ∀ n, 8 ≤ n → cmd.getLsbD n = false := fun n h => BitVec.getLsbD_of_ge cmd n h
  have hm : ∀ j : Fin 32, (0xFF00FEFF#32).getLsbD j.val =
      decide (j.val < 8 ∨ (9 ≤ j.val ∧ j.val < 16) ∨ 24 ≤ j.val) := by decide
  have hmi := hm ⟨i, hi⟩
  simp only at hmi
  rw [BitVec.getLsbD_and, makeFrame_w0_bit, hmi, BitVec.getLsbD_setWidth]
  by_cases h1 : i < 8
  · simp [h1, hi]
  · rw [h8 i (by omega)]
    by_cases h2 : i = 8
    · simp [h2]
    · by_cases h3 : i < 16
      · simp [h1, h2, h3]
      · by_cases h4 : 24 ≤ i
        · have := BitVec.getLsbD_of_ge arg8 (i - 16) (by omega)
          simp [h1, h2, h3, this]
        · simp [h1, h2, h3, h4]

end Sys2Proof
end

