-- ==== Sys2Proof/Laws/PerInstr.lean ====
section
/-! SUPPORT. One family of statements about every command as syntax: its encoding is a well-formed frame
(spec/30_encoding.md R103) that selects the row of its own mnemonic in the opcode map (R94). -/

namespace Sys2Proof.Laws.OwnRow

/-- The frame of a command is not reserved and selects the row of the command's mnemonic. -/
def Statement (i : Instr) : Prop :=
  (encode i).wellFormed = true ∧
    ∃ row ∈ opcodeTable, row.mnemonic = i.mnemonic ∧ row.selects (encode i) = true

/-- How every command's statement is proved: from its command code alone. -/
theorem ofCode {i : Instr} {arg8 : Byte} {osc : Bool} {cmd : Byte} {w1 w2 w3 : Word}
    (he : encode i = makeFrame arg8 osc cmd w1 w2 w3) (row : OpcodeRow) (hr : row ∈ opcodeTable)
    (hn : row.mnemonic = i.mnemonic) (hm : row.mask = 0xFF00FEFF#32)
    (hp : cmd.zeroExtend 32 = row.pattern)
    (hw : (makeFrame 0#8 false cmd 0#32 0#32 0#32).wellFormed = true) : Statement i := by
  refine ⟨?_, row, hr, hn, ?_⟩
  · rw [← hw, he]
    simp [Frame.wellFormed, Frame.reservedField, Frame.reservedZ, Frame.reservedUnit,
      Frame.reservedOp, Frame.reservedSymOp, Frame.reservedTy]
  · simp [OpcodeRow.selects, he, hm, makeFrame_masked, hp]

theorem ainitAm (a f k : Word) (osc : Bool) : Statement (.ainitAm a f k osc) :=
  ofCode rfl ⟨"AINIT.AM", 0xFF00FEFF#32, 0x04#32⟩ (by simp [opcodeTable]) rfl rfl rfl (by decide)

theorem ainitFm (a f k : Word) (osc : Bool) : Statement (.ainitFm a f k osc) :=
  ofCode rfl ⟨"AINIT.FM", 0xFF00FEFF#32, 0x05#32⟩ (by simp [opcodeTable]) rfl rfl rfl (by decide)

theorem ainitPm (a f k : Word) (osc : Bool) : Statement (.ainitPm a f k osc) :=
  ofCode rfl ⟨"AINIT.PM", 0xFF00FEFF#32, 0x06#32⟩ (by simp [opcodeTable]) rfl rfl rfl (by decide)

theorem ainitU3 (a f k : Word) (osc : Bool) : Statement (.ainitU3 a f k osc) :=
  ofCode rfl ⟨"AINIT.U3", 0xFF00FEFF#32, 0x07#32⟩ (by simp [opcodeTable]) rfl rfl rfl (by decide)

theorem aval (m : Word) : Statement (.aval m) :=
  ofCode rfl ⟨"AVAL", 0xFF00FEFF#32, 0x08#32⟩ (by simp [opcodeTable]) rfl rfl rfl (by decide)

theorem asmp (m : Word) : Statement (.asmp m) :=
  ofCode rfl ⟨"ASMP", 0xFF00FEFF#32, 0x0C#32⟩ (by simp [opcodeTable]) rfl rfl rfl (by decide)

theorem binitAsk (a f k : Word) (osc : Bool) : Statement (.binitAsk a f k osc) :=
  ofCode rfl ⟨"BINIT.ASK", 0xFF00FEFF#32, 0x14#32⟩ (by simp [opcodeTable]) rfl rfl rfl (by decide)

theorem binitFsk (a f k : Word) (osc : Bool) : Statement (.binitFsk a f k osc) :=
  ofCode rfl ⟨"BINIT.FSK", 0xFF00FEFF#32, 0x15#32⟩ (by simp [opcodeTable]) rfl rfl rfl (by decide)

theorem binitPsk (a f k : Word) (osc : Bool) : Statement (.binitPsk a f k osc) :=
  ofCode rfl ⟨"BINIT.PSK", 0xFF00FEFF#32, 0x16#32⟩ (by simp [opcodeTable]) rfl rfl rfl (by decide)

theorem binitU3 (a f k : Word) (osc : Bool) : Statement (.binitU3 a f k osc) :=
  ofCode rfl ⟨"BINIT.U3", 0xFF00FEFF#32, 0x17#32⟩ (by simp [opcodeTable]) rfl rfl rfl (by decide)

theorem bval (sy : Byte) : Statement (.bval sy) :=
  ofCode rfl ⟨"BVAL", 0xFF00FEFF#32, 0x18#32⟩ (by simp [opcodeTable]) rfl rfl rfl (by decide)

theorem bsmp (sy : Byte) : Statement (.bsmp sy) :=
  ofCode rfl ⟨"BSMP", 0xFF00FEFF#32, 0x1C#32⟩ (by simp [opcodeTable]) rfl rfl rfl (by decide)

theorem sym (b : Byte) : Statement (.sym b) :=
  ofCode rfl ⟨"SYM", 0xFF00FEFF#32, 0x28#32⟩ (by simp [opcodeTable]) rfl rfl rfl (by decide)

end Sys2Proof.Laws.OwnRow
end

