-- ==== Sys2Proof/Laws/Rounding.lean ====
section
/-! SUPPORT. Rounding (spec/40_shared_numerics.md R130, R131): the fields of a packed FLOAT, scaling of
the exact quotient, exactness on representable values, and a bound by a representable value. -/

namespace Sys2Proof.Machine

/-! ### The fields of a packed FLOAT -/

section
variable {neg : Bool} {m : Nat}

theorem pack_toNat (h : m < 2 ^ 31) :
    (pack neg m).toNat = (if neg then 2 ^ 31 else 0) + m := by
  cases neg <;> simp [pack, BitVec.toNat_ofNat] <;> omega

theorem signBit_iff (x : Word) : signBit x = decide (2 ^ 31 ≤ x.toNat) := by
  rw [signBit, BitVec.getLsbD, Nat.testBit_eq_decide_div_mod_eq]
  have := x.isLt
  congr 1
  apply propext
  omega

@[simp] theorem signBit_pack (h : m < 2 ^ 31) : signBit (pack neg m) = neg := by
  rw [signBit_iff, pack_toNat h]
  cases neg
  · simp only [Bool.false_eq_true, if_false, decide_eq_false_iff_not]; omega
  · simp

theorem expField_pack (h : m < 2 ^ 31) : expField (pack neg m) = m / 2 ^ 23 := by
  rw [expField, pack_toNat h]
  cases neg <;> simp <;> omega

theorem fracField_pack (h : m < 2 ^ 31) : fracField (pack neg m) = m % 2 ^ 23 := by
  rw [fracField, pack_toNat h]
  cases neg <;> simp; omega

/-- A FLOAT is packed from its own sign and magnitude bits (R97). -/
theorem pack_self (x : Word) : pack (signBit x) (x.toNat % 2 ^ 31) = x := by
  apply BitVec.eq_of_toNat_eq
  rw [pack_toNat (Nat.mod_lt _ (by decide)), signBit_iff]
  have := x.isLt
  by_cases h : 2 ^ 31 ≤ x.toNat
  · simp only [h, decide_true, if_true]; omega
  · simp only [h, decide_false, Bool.false_eq_true, if_false]; omega

end

/-! ### Magnitudes -/

/-- The magnitude as a significand below 2^24 times a power of two, read off the low 31 bits `m` (R97). -/
def magOf (m : Nat) : Nat :=
  if m / 2 ^ 23 = 0 then m % 2 ^ 23 else (2 ^ 23 + m % 2 ^ 23) * 2 ^ (m / 2 ^ 23 - 1)

theorem mag_pack {neg : Bool} {m : Nat} (h : m < 2 ^ 31) : mag (pack neg m) = magOf m := by
  rw [mag, expField_pack h, fracField_pack h, magOf]

theorem mag_eq_magOf (x : Word) : mag x = magOf (x.toNat % 2 ^ 31) := by
  conv_lhs => rw [← pack_self x]
  exact mag_pack (Nat.mod_lt _ (by decide))

theorem key_pack {neg : Bool} {m : Nat} (h : m < 2 ^ 31) :
    key (pack neg m) = if neg then -(magOf m : Int) else (magOf m : Int) := by
  rw [key, signBit_pack h, mag_pack h]

/-- Magnitudes grow with the magnitude bits (R97). -/
theorem magOf_mono {m n : Nat} (h : m ≤ n) : magOf m ≤ magOf n := by
  unfold magOf
  have hm := Nat.div_add_mod m (2 ^ 23)
  have hn := Nat.div_add_mod n (2 ^ 23)
  have hm' := Nat.mod_lt m (show 2 ^ 23 > 0 by decide)
  have hn' := Nat.mod_lt n (show 2 ^ 23 > 0 by decide)
  have hq : m / 2 ^ 23 ≤ n / 2 ^ 23 := Nat.div_le_div_right h
  generalize m / 2 ^ 23 = a at *
  generalize n / 2 ^ 23 = b at *
  generalize m % 2 ^ 23 = r at *
  generalize n % 2 ^ 23 = t at *
  by_cases ha : a = 0
  · rw [if_pos ha]
    by_cases hb : b = 0
    · rw [if_pos hb]; subst ha; subst hb; omega
    · rw [if_neg hb]
      calc r ≤ (2 ^ 23 + t) * 1 := by omega
        _ ≤ (2 ^ 23 + t) * 2 ^ (b - 1) := Nat.mul_le_mul_left _ Nat.one_le_two_pow
  · rw [if_neg ha, if_neg (by omega)]
    by_cases hab : a = b
    · subst hab
      exact Nat.mul_le_mul_right _ (by omega)
    · calc (2 ^ 23 + r) * 2 ^ (a - 1) ≤ (2 ^ 23 * 2) * 2 ^ (a - 1) := Nat.mul_le_mul_right _ (by omega)
        _ = 2 ^ 23 * 2 ^ (a - 1 + 1) := by ring
        _ ≤ 2 ^ 23 * 2 ^ (b - 1) := Nat.mul_le_mul_left _ (Nat.pow_le_pow_right (by decide) (by omega))
        _ ≤ (2 ^ 23 + t) * 2 ^ (b - 1) := Nat.mul_le_mul_right _ (by omega)

/-! ### Rounding to an integer -/

/-- Rounding does not see a common factor. -/
theorem roundTiesEven_scale {c : Nat} (hc : 0 < c) (n d : Nat) :
    roundTiesEven (c * n) (c * d) = roundTiesEven n d := by
  unfold roundTiesEven
  rw [Nat.mul_mod_mul_left, Nat.mul_div_mul_left _ _ hc]
  have h1 : c * d < 2 * (c * (n % d)) ↔ d < 2 * (n % d) := by
    rw [show 2 * (c * (n % d)) = c * (2 * (n % d)) by ring]
    exact Nat.mul_lt_mul_left hc
  have h2 : 2 * (c * (n % d)) = c * d ↔ 2 * (n % d) = d := by
    rw [show 2 * (c * (n % d)) = c * (2 * (n % d)) by ring]
    exact Nat.mul_right_inj (by omega)
  simp only [h1, h2]

/-- An integer rounds to itself. -/
theorem roundTiesEven_mul_self {d : Nat} (hd : 0 < d) (q : Nat) : roundTiesEven (q * d) d = q := by
  unfold roundTiesEven
  rw [Nat.mul_mod_left, Nat.mul_div_cancel _ hd, if_neg (by omega)]

/-- What is at most an integer rounds to at most that integer. -/
theorem roundTiesEven_le {n d q : Nat} (hd : 0 < d) (h : n ≤ q * d) : roundTiesEven n d ≤ q := by
  unfold roundTiesEven
  have hdm := Nat.div_add_mod n d
  have hle : n / d ≤ q := by
    rw [← Nat.mul_div_cancel q hd]; exact Nat.div_le_div_right h
  split
  · rcases Nat.lt_or_ge (n / d) q with h1 | h1
    · omega
    · have h2 : n / d = q := by omega
      have h3 : d * q = q * d := Nat.mul_comm _ _
      rw [h2, h3] at hdm
      omega
  · exact hle

/-! ### Rounding to a FLOAT -/

/-- Rounding to a FLOAT does not see a common factor of the exact quotient. -/
theorem roundMag_scale {c : Nat} (hc : 0 < c) (n d : Nat) : roundMag (c * n) (c * d) = roundMag n d := by
  unfold roundMag
  rw [Nat.mul_div_mul_left _ _ hc, Nat.mul_assoc, roundTiesEven_scale hc]

theorem roundMag_le_infBits (n d : Nat) : roundMag n d ≤ infBits := Nat.min_le_right _ _

theorem roundMag_lt (n d : Nat) : roundMag n d < 2 ^ 31 :=
  Nat.lt_of_le_of_lt (roundMag_le_infBits n d) (by decide)

/-- A value below 2^24 units rounds to the integer itself. -/
theorem roundMag_small {N : Nat} (h : N < 2 ^ 24) : roundMag N 1 = N := by
  have hl : Nat.log2 N - 23 = 0 := by
    rcases Nat.eq_zero_or_pos N with h0 | h0
    · subst h0; rfl
    · have := (Nat.log2_lt (by omega)).2 h; omega
  unfold roundMag
  rw [Nat.div_one, hl]
  have h1 := roundTiesEven_mul_self (d := 1 * 2 ^ 0) (by decide) N
  rw [show N * (1 * 2 ^ 0) = N by ring] at h1
  rw [h1]
  simp only [infBits]
  omega

/-- A significand of 24 bits times `2^e` is representable and rounds to itself: its magnitude bits
(R97). -/
theorem roundMag_normal {r e : Nat} (h1 : 2 ^ 23 ≤ r) (h2 : r < 2 ^ 24) (he : e ≤ 253) :
    roundMag (r * 2 ^ e) 1 = e * 2 ^ 23 + r := by
  have hp : 0 < 2 ^ e := Nat.two_pow_pos e
  have hl : Nat.log2 (r * 2 ^ e) = 23 + e := by
    rw [Nat.log2_eq_iff (by positivity)]
    constructor
    · rw [pow_add]; exact Nat.mul_le_mul_right _ h1
    · rw [show 23 + e + 1 = 24 + e by omega, pow_add]; exact Nat.mul_lt_mul_of_pos_right h2 hp
  unfold roundMag
  rw [Nat.div_one, hl, Nat.add_sub_cancel_left, Nat.one_mul, roundTiesEven_mul_self hp]
  simp only [infBits]
  omega

/-- A finite FLOAT is exact: rounding its magnitude gives its magnitude bits back (R97). -/
theorem roundMag_magOf {m : Nat} (h : m < infBits) : roundMag (magOf m) 1 = m := by
  have hd := Nat.div_add_mod m (2 ^ 23)
  have hm := Nat.mod_lt m (show 2 ^ 23 > 0 by decide)
  simp only [infBits] at h
  unfold magOf
  split
  · rename_i h0
    rw [roundMag_small (by omega)]; omega
  · rename_i h0
    rw [roundMag_normal (by omega) (by omega) (by omega)]; omega

/-- Any significand below 2^24 times a power of two is rounded exactly, as long as it is in the range of
finite FLOATs. -/
theorem magOf_roundMag {q k : Nat} (hq : q < 2 ^ 24) (h : q * 2 ^ k < 2 ^ 277) :
    magOf (roundMag (q * 2 ^ k) 1) = q * 2 ^ k := by
  by_cases hs : q * 2 ^ k < 2 ^ 24
  · rw [roundMag_small hs]
    have hd := Nat.div_add_mod (q * 2 ^ k) (2 ^ 23)
    have hm := Nat.mod_lt (q * 2 ^ k) (show 2 ^ 23 > 0 by decide)
    unfold magOf
    generalize q * 2 ^ k = N at *
    have : N / 2 ^ 23 = 0 ∨ N / 2 ^ 23 = 1 := by omega
    rcases this with h0 | h0
    · rw [if_pos h0]; omega
    · rw [if_neg (by omega), h0]; omega
  · have hpos : q * 2 ^ k ≠ 0 := by omega
    have hq0 : q ≠ 0 := by rintro rfl; simp at hpos
    -- the significand moved up until it has 24 bits
    have hl := Nat.log2_lt hq0 (k := 24) |>.2 hq
    have hlow : 2 ^ Nat.log2 q ≤ q := Nat.log2_self_le hq0
    have hhigh : q < 2 ^ (Nat.log2 q + 1) := Nat.lt_log2_self
    have hj : Nat.log2 q ≤ 23 := by omega
    have hk : 23 - Nat.log2 q ≤ k := by
      by_contra hc
      apply hs
      calc q * 2 ^ k < 2 ^ (Nat.log2 q + 1) * 2 ^ k := Nat.mul_lt_mul_of_pos_right hhigh (Nat.two_pow_pos k)
        _ = 2 ^ (Nat.log2 q + 1 + k) := (pow_add _ _ _).symm
        _ ≤ 2 ^ 24 := Nat.pow_le_pow_right (by decide) (by omega)
    have he : q * 2 ^ k = q * 2 ^ (23 - Nat.log2 q) * 2 ^ (k - (23 - Nat.log2 q)) := by
      rw [Nat.mul_assoc, ← pow_add, Nat.add_sub_cancel' hk]
    have hr1 : 2 ^ 23 ≤ q * 2 ^ (23 - Nat.log2 q) := by
      calc 2 ^ 23 = 2 ^ Nat.log2 q * 2 ^ (23 - Nat.log2 q) := by rw [← pow_add, Nat.add_sub_cancel' hj]
        _ ≤ _ := Nat.mul_le_mul_right _ hlow
    have hr2 : q * 2 ^ (23 - Nat.log2 q) < 2 ^ 24 := by
      calc _ < 2 ^ (Nat.log2 q + 1) * 2 ^ (23 - Nat.log2 q) :=
            Nat.mul_lt_mul_of_pos_right hhigh (Nat.two_pow_pos _)
        _ = 2 ^ 24 := by rw [← pow_add]; congr 1; omega
    rw [he] at h ⊢
    generalize q * 2 ^ (23 - Nat.log2 q) = r at *
    generalize k - (23 - Nat.log2 q) = e at *
    have hee : e ≤ 253 := by
      by_contra hc
      have : 2 ^ 23 * 2 ^ 254 ≤ r * 2 ^ e :=
        Nat.mul_le_mul hr1 (Nat.pow_le_pow_right (by decide) (by omega))
      rw [← pow_add] at this
      exact absurd h (Nat.not_lt.2 this)
    rw [roundMag_normal hr1 hr2 hee, magOf, if_neg (by omega),
      show (e * 2 ^ 23 + r) / 2 ^ 23 - 1 = e by omega,
      show 2 ^ 23 + (e * 2 ^ 23 + r) % 2 ^ 23 = r by omega]

/-- A magnitude is a multiple of its last place (R97). -/
theorem magOf_dvd (m : Nat) : 2 ^ (Nat.log2 (magOf m) - 23) ∣ magOf m := by
  have hr := Nat.mod_lt m (show 2 ^ 23 > 0 by decide)
  unfold magOf
  split
  · have hl : Nat.log2 (m % 2 ^ 23) - 23 = 0 := by
      rcases Nat.eq_zero_or_pos (m % 2 ^ 23) with h0 | h0
      · rw [h0]; rfl
      · have := (Nat.log2_lt (by omega)).2 hr; omega
    rw [hl]; exact one_dvd _
  · have hp := Nat.two_pow_pos (m / 2 ^ 23 - 1)
    have hl : Nat.log2 ((2 ^ 23 + m % 2 ^ 23) * 2 ^ (m / 2 ^ 23 - 1)) = 23 + (m / 2 ^ 23 - 1) := by
      rw [Nat.log2_eq_iff (by positivity)]
      constructor
      · rw [pow_add]; exact Nat.mul_le_mul_right _ (by omega)
      · rw [show 23 + (m / 2 ^ 23 - 1) + 1 = 24 + (m / 2 ^ 23 - 1) by omega, pow_add]
        exact Nat.mul_lt_mul_of_pos_right (by omega) hp
    rw [hl, Nat.add_sub_cancel_left]
    exact Nat.dvd_mul_left _ _

/-- An exact quotient at most a finite FLOAT's magnitude rounds to at most that FLOAT. -/
theorem roundMag_le_of_le {n d m : Nat} (hd : 0 < d) (hm : m < infBits) (h : n ≤ magOf m * d) :
    roundMag n d ≤ m := by
  have hN := roundMag_magOf hm
  have hdvd := magOf_dvd m
  generalize magOf m = N at *
  have hq : n / d ≤ N := by
    rw [← Nat.mul_div_cancel N hd]; exact Nat.div_le_div_right h
  have hlog : Nat.log2 (n / d) ≤ Nat.log2 N := by
    rcases Nat.eq_zero_or_pos (n / d) with h0 | h0
    · rw [h0]; simp
    · rw [Nat.le_log2 (by omega)]
      exact Nat.le_trans (Nat.log2_self_le (by omega)) hq
  rw [← hN]
  unfold roundMag
  rw [Nat.div_one]
  apply Nat.le_min.2
  refine ⟨?_, Nat.min_le_right _ _⟩
  refine Nat.le_trans (Nat.min_le_left _ _) ?_
  rcases Nat.lt_or_ge (Nat.log2 (n / d) - 23) (Nat.log2 N - 23) with hlt | hge
  · -- the quotient has fewer bits: even rounded up it stays below the next power of two
    have hup : roundTiesEven n (d * 2 ^ (Nat.log2 (n / d) - 23)) ≤ 2 ^ 24 := by
      apply roundTiesEven_le (Nat.mul_pos hd (Nat.two_pow_pos _))
      have h1 : n / d < 2 ^ (Nat.log2 (n / d) + 1) := Nat.lt_log2_self
      have h2 : n < (n / d + 1) * d := by
        rw [Nat.add_mul, Nat.one_mul, Nat.mul_comm]; exact Nat.lt_mul_div_succ n hd |>.trans_eq (by ring)
      have h3 : 2 ^ (Nat.log2 (n / d) + 1) ≤ 2 ^ 24 * 2 ^ (Nat.log2 (n / d) - 23) := by
        rw [← pow_add]; exact Nat.pow_le_pow_right (by decide) (by omega)
      calc n ≤ (n / d + 1) * d := Nat.le_of_lt h2
        _ ≤ (2 ^ 24 * 2 ^ (Nat.log2 (n / d) - 23)) * d := Nat.mul_le_mul_right _ (by omega)
        _ = _ := by ring
    have hlow : 2 ^ 23 ≤ roundTiesEven N (1 * 2 ^ (Nat.log2 N - 23)) := by
      have hN0 : N ≠ 0 := by rintro rfl; simp at hlt
      have h1 : 2 ^ Nat.log2 N ≤ N := Nat.log2_self_le hN0
      have h2 : 2 ^ 23 * 2 ^ (Nat.log2 N - 23) ≤ N := by
        rw [← pow_add, Nat.add_sub_cancel' (by omega)]; exact h1
      have h3 : 2 ^ 23 ≤ N / 2 ^ (Nat.log2 N - 23) := (Nat.le_div_iff_mul_le (Nat.two_pow_pos _)).2 h2
      unfold roundTiesEven
      rw [Nat.one_mul]
      split <;> omega
    have : (Nat.log2 (n / d) - 23 + 1) * 2 ^ 23 ≤ (Nat.log2 N - 23) * 2 ^ 23 := Nat.mul_le_mul_right _ hlt
    omega
  · have he : Nat.log2 (n / d) - 23 = Nat.log2 N - 23 := by omega
    rw [he]
    apply Nat.add_le_add_left
    -- a finite magnitude is an exact multiple of its last place
    apply roundTiesEven_le (Nat.mul_pos hd (Nat.two_pow_pos _))
    obtain ⟨r, hr⟩ := hdvd
    generalize Nat.log2 N - 23 = e at *
    subst hr
    rw [Nat.one_mul, Nat.mul_comm (2 ^ e) r, roundTiesEven_mul_self (Nat.two_pow_pos _)]
    calc n ≤ 2 ^ e * r * d := h
      _ = r * (d * 2 ^ e) := by ring

end Sys2Proof.Machine
end

