-- ==== Sys2Proof/Tests/Slice0.lean ====
section
/-! SUPPORT. Tests of the model. Every expected result is a vector of spec/95_test_vectors.md (its
identifier stands in the docstring), and every statement with hypotheses has a witness here: a
concrete state and operands that meet all of them. -/

namespace Sys2Proof.Tests

open Sys2Proof.Machine

/-! ### Helpers -/

/-- The test configuration of spec/95_test_vectors.md. -/
def params : Params where
  vpp := 0x40800000#32
  fs := 0x473B8000#32
  mvRes := 0x3A800000#32
  pi := Config.piDefault
  pi2 := Config.pi2Default
  pi4 := Config.pi4Default
  sampleBits := Config.sampleBitsDefault

/-- The reset state under the test configuration, with a script for each oscillator. -/
def start (oscA oscB : List Word) : State :=
  { State.reset with params := params, oscA := oscA, oscB := oscB }

/-- A state whose AnalogModulator holds `u`, with a script for its oscillator. -/
def analog (u : AnalogUnit) (oscA : List Word) : State := (start oscA []).setAm u

/-- A state whose BinaryModulator holds `u`, with a script for its oscillator. -/
def binary (u : BinaryUnit) (oscB : List Word) : State := (start [] oscB).setBm u

/-- A configured and bound `am.*`. -/
def am (ty : AnalogType) (a f k : Word) : AnalogUnit := ⟨true, ty, a, f, k, true⟩

/-- A configured and bound `bm.*`. -/
def bm (ty : BinaryType) (a f k s : Word) : BinaryUnit := ⟨true, ty, a, f, k, s, true, 0, 0⟩

/-- The state after I1 (`am.A = 1.5`, `am.F = 1000.0`, `am.K = 0.5`). -/
def afterI1 (oscA : List Word) : State :=
  analog (am .am 0x3FC00000#32 0x447A0000#32 0x3F000000#32) oscA

/-- The state after B8 (`bm.A = 1.5`, `bm.F = 1000.0`, `bm.K = 1.0`). -/
def afterB8 (oscB : List Word) : State :=
  binary (bm .psk 0x3FC00000#32 0x447A0000#32 0x3F800000#32 0#32) oscB

/-- The state after B4 (`bm.A = 1.0`, `bm.F = 8000.0`, `bm.K = 400.0`, `bm.S = 200.0`). -/
def afterB4 (oscB : List Word) : State :=
  binary (bm .fsk 0x3F800000#32 0x45FA0000#32 0x43C80000#32 0x43480000#32) oscB

/-- The next state of an outcome that has one. -/
def nextOf : Host.Outcome State Fault Refusal → Option State
  | .next t => some t
  | .fault _ => none
  | .refused _ => none

/-- The fault of an outcome. -/
def faultOf : Host.Outcome State Fault Refusal → Option Fault
  | .next _ => none
  | .fault r => some r
  | .refused _ => none

/-- The refusal of an outcome. -/
def refusalOf : Host.Outcome State Fault Refusal → Option Refusal
  | .next _ => none
  | .fault _ => none
  | .refused r => some r

/-- `am.*` after a command. -/
def amAfter (i : Instr) (s : State) : Option AnalogUnit := (nextOf (exec i s)).map (·.am)

/-- `bm.*` after a command. -/
def bmAfter (i : Instr) (s : State) : Option BinaryUnit := (nextOf (exec i s)).map (·.bm)

/-- The results and the events after a command. -/
def seenAfter (i : Instr) (s : State) : Option (List (Option Word) × List OscEvent) :=
  (nextOf (exec i s)).map fun t => (t.results, t.trace)

/-- An outcome whose next state is there is a next outcome. -/
theorem exists_next {o : Host.Outcome State Fault Refusal} (h : (nextOf o).isSome = true) :
    ∃ t, o = .next t := by
  cases o with
  | next t => exact ⟨t, rfl⟩
  | fault r => cases h
  | refused r => cases h

/-! ### Decoding -/

/-- E2, written out bit by bit: rsv1, arg8, rsv0, osc, z, unit, op, ty. -/
theorem test_decode_ainit_fm_bits :
    decode ⟨0b00000000000000000000000000000101#32, 1#32, 2#32, 3#32⟩ =
      .command (.ainitFm 1#32 2#32 3#32 false) := by decide

/-- E8, written out bit by bit. -/
theorem test_decode_binit_fsk_bits :
    decode ⟨0b00000000000000000000000100010101#32, 1#32, 2#32, 3#32⟩ =
      .command (.binitFsk 1#32 2#32 3#32 true) := by decide

/-- E13, written out bit by bit. -/
theorem test_decode_sym_bits :
    decode ⟨0b00000000101100100000000000101000#32, 1#32, 2#32, 3#32⟩ = .command (.sym 0xB2#8) := by
  decide

/-- E1, E3, E4: the other INITs of the AnalogModulator. -/
theorem test_decode_ainit :
    decode ⟨0x00000104#32, 1#32, 2#32, 3#32⟩ = .command (.ainitAm 1#32 2#32 3#32 true) ∧
      decode ⟨0x00000106#32, 1#32, 2#32, 3#32⟩ = .command (.ainitPm 1#32 2#32 3#32 true) ∧
      decode ⟨0x00000007#32, 1#32, 2#32, 3#32⟩ = .command (.ainitU3 1#32 2#32 3#32 false) := by
  decide

/-- E7, E9, E10: the other INITs of the BinaryModulator. -/
theorem test_decode_binit :
    decode ⟨0x00000114#32, 1#32, 2#32, 3#32⟩ = .command (.binitAsk 1#32 2#32 3#32 true) ∧
      decode ⟨0x00000016#32, 1#32, 2#32, 3#32⟩ = .command (.binitPsk 1#32 2#32 3#32 false) ∧
      decode ⟨0x00000117#32, 1#32, 2#32, 3#32⟩ = .command (.binitU3 1#32 2#32 3#32 true) := by
  decide

/-- E5, E6, E11, E12, E14: the value commands; `AVAL` ignores `arg8` and `osc`. -/
theorem test_decode_values :
    decode ⟨0x00000008#32, 1#32, 2#32, 3#32⟩ = .command (.aval 1#32) ∧
      decode ⟨0x0000000C#32, 1#32, 2#32, 3#32⟩ = .command (.asmp 1#32) ∧
      decode ⟨0x00010018#32, 1#32, 2#32, 3#32⟩ = .command (.bval 1#8) ∧
      decode ⟨0x0002001C#32, 1#32, 2#32, 3#32⟩ = .command (.bsmp 2#8) ∧
      decode ⟨0x00FF0108#32, 1#32, 2#32, 3#32⟩ = .command (.aval 1#32) := by decide

/-- E15 to E22: reserved command codes. -/
theorem test_decode_reserved_codes :
    decode ⟨0x00000000#32, 0#32, 0#32, 0#32⟩ = .reservedCommand ∧
      decode ⟨0x00000009#32, 0#32, 0#32, 0#32⟩ = .reservedCommand ∧
      decode ⟨0x0000001F#32, 0#32, 0#32, 0#32⟩ = .reservedCommand ∧
      decode ⟨0x00000024#32, 0#32, 0#32, 0#32⟩ = .reservedCommand ∧
      decode ⟨0x0000002C#32, 0#32, 0#32, 0#32⟩ = .reservedCommand ∧
      decode ⟨0x00000029#32, 0#32, 0#32, 0#32⟩ = .reservedCommand ∧
      decode ⟨0x00000034#32, 0#32, 0#32, 0#32⟩ = .reservedCommand ∧
      decode ⟨0x00000044#32, 0#32, 0#32, 0#32⟩ = .reservedCommand := by
  decide

/-- E23 to E25: reserved bits that are not 0. -/
theorem test_decode_reserved_bits :
    decode ⟨0x01000008#32, 0#32, 0#32, 0#32⟩ = .reservedCommand ∧
      decode ⟨0x00000208#32, 0#32, 0#32, 0#32⟩ = .reservedCommand ∧
      decode ⟨0x00008028#32, 0#32, 0#32, 0#32⟩ = .reservedCommand := by
  decide

/-- The bits of I1 (`00000104 3FC00000 447A0000 3F000000`), bit 0 being bit 0 of `W0`. -/
theorem test_decode_table_word :
    decodeTableWord 128 0x3F000000447A00003FC0000000000104 =
      some (.ainitAm 0x3FC00000#32 0x447A0000#32 0x3F000000#32 true) := by decide

/-- A word placed with `withFetchWord` is what the next step runs: E13 from reset returns bit 0 of 0xB2
(S2). -/
theorem test_fetch_word :
    (nextOf (step (State.reset.withFetchWord 32 0x00B20028))).map (·.results) = some [some 0#32] := by
  decide

/-! ### Well-formed frames: one ill-formed frame for each check of R103 -/

/-- A frame none of the six conditions holds for (E1). -/
theorem test_well_formed : Frame.wellFormed ⟨0x00000104#32, 0#32, 0#32, 0#32⟩ = true := by decide

/-- R103 item 1 (E24). -/
theorem test_reserved_field :
    Frame.reservedField ⟨0x00000208#32, 0#32, 0#32, 0#32⟩ = true ∧
      Frame.wellFormed ⟨0x00000208#32, 0#32, 0#32, 0#32⟩ = false := by decide

/-- R103 item 2 (E22). -/
theorem test_reserved_z :
    Frame.reservedZ ⟨0x00000044#32, 0#32, 0#32, 0#32⟩ = true ∧
      Frame.wellFormed ⟨0x00000044#32, 0#32, 0#32, 0#32⟩ = false := by decide

/-- R103 item 3 (E21). -/
theorem test_reserved_unit :
    Frame.reservedUnit ⟨0x00000034#32, 0#32, 0#32, 0#32⟩ = true ∧
      Frame.wellFormed ⟨0x00000034#32, 0#32, 0#32, 0#32⟩ = false := by decide

/-- R103 item 4 (E15). -/
theorem test_reserved_op :
    Frame.reservedOp ⟨0x00000000#32, 0#32, 0#32, 0#32⟩ = true ∧
      Frame.wellFormed ⟨0x00000000#32, 0#32, 0#32, 0#32⟩ = false := by decide

/-- R103 item 5 (E19). -/
theorem test_reserved_sym_op :
    Frame.reservedSymOp ⟨0x0000002C#32, 0#32, 0#32, 0#32⟩ = true ∧
      Frame.wellFormed ⟨0x0000002C#32, 0#32, 0#32, 0#32⟩ = false := by decide

/-- R103 item 6 (E20). -/
theorem test_reserved_ty :
    Frame.reservedTy ⟨0x00000029#32, 0#32, 0#32, 0#32⟩ = true ∧
      Frame.wellFormed ⟨0x00000029#32, 0#32, 0#32, 0#32⟩ = false := by decide

/-- The listing line of `SYM 0xB2` (R107). -/
theorem test_listing_line :
    listingLine (.sym 0xB2#8) = "00B20028 -------- -------- --------  SYM 0xB2".toList := by decide

/-! ### The INIT commands -/

/-- I2: every field is clamped or wrapped. -/
theorem test_ainit_am_clamps :
    amAfter (.ainitAm 0x40200000#32 0x469C4000#32 0x40300000#32 true) (start [] []) =
      some ⟨true, .am, 0x40000000#32, 0x463B8000#32, 0x3F400000#32, true⟩ := by decide

/-- N2: the depth is the exact fractional part of 2.3's binary32 value. -/
theorem test_ainit_am_wraps :
    amAfter (.ainitAm 0x3F800000#32 0x447A0000#32 0xC0133333#32 true) (start [] []) =
      some ⟨true, .am, 0x3F800000#32, 0x447A0000#32, 0x3E999998#32, true⟩ := by decide

/-- I5: the deviation limit is an eighth of the clamped frequency; one `OscInit` is emitted. -/
theorem test_ainit_fm_limit :
    amAfter (.ainitFm 0x40000000#32 0x469C4000#32 0x459C4000#32 true) (start [] []) =
        some ⟨true, .fm, 0x40000000#32, 0x463B8000#32, 0x44BB8000#32, true⟩ ∧
      seenAfter (.ainitFm 0x40000000#32 0x469C4000#32 0x459C4000#32 true) (start [] []) =
        some ([none], [.init .a 0#8 0x40000000#32 0x463B8000#32 0#32 0#32]) := by decide

/-- I7: a negative frequency makes the limit negative. -/
theorem test_ainit_fm_negative :
    amAfter (.ainitFm 0x3F800000#32 0xC1000000#32 0x00000000#32 true) (start [] []) =
      some ⟨true, .fm, 0x3F800000#32, 0xC1000000#32, 0xBF800000#32, true⟩ := by decide

/-- I8: saturation stores the pattern of `PI_4`. -/
theorem test_ainit_pm_saturates :
    amAfter (.ainitPm 0x3F800000#32 0x447A0000#32 0x3F800000#32 true) (start [] []) =
      some ⟨true, .pm, 0x3F800000#32, 0x447A0000#32, 0x3F490FDB#32, true⟩ := by decide

/-- I10: only the upper side is limited. -/
theorem test_ainit_pm_negative :
    amAfter (.ainitPm 0x3F800000#32 0x447A0000#32 0xC0000000#32 true) (start [] []) =
      some ⟨true, .pm, 0x3F800000#32, 0x447A0000#32, 0xC0000000#32, true⟩ := by decide

/-- The example of R165: after I1, an `AINIT.U3` with `osc = 0` keeps `am.K` and the binding. -/
theorem test_ainit_u3_keeps_k :
    amAfter (.ainitU3 0x3F800000#32 0x447A0000#32 0x3F666666#32 false) (afterI1 []) =
      some ⟨true, .u3, 0x3F800000#32, 0x447A0000#32, 0x3F000000#32, true⟩ := by decide

/-- I12, I13: a NaN or an infinity among the operands is refused. -/
theorem test_ainit_non_finite :
    refusalOf (exec (.ainitAm 0x7FC00000#32 0x3F800000#32 0x3F800000#32 true) (start [] [])) =
        some .nonFiniteOperand ∧
      refusalOf (exec (.ainitFm 0x3F800000#32 0x3F800000#32 0xFF800000#32 true) (start [] [])) =
        some .nonFiniteOperand := by decide

/-- B2: the shift limit is a quarter of the clamped amplitude. -/
theorem test_binit_ask_limit :
    bmAfter (.binitAsk 0x40400000#32 0x447A0000#32 0x3F400000#32 true) (start [] []) =
      some ⟨true, .ask, 0x40000000#32, 0x447A0000#32, 0x3F000000#32, 0#32, true, 0, 0⟩ := by decide

/-- N8: the limit `0.25 * A` at an inexact decimal. -/
theorem test_binit_ask_rounded :
    bmAfter (.binitAsk 0x3FA66666#32 0x447A0000#32 0x3F333333#32 true) (start [] []) =
      some ⟨true, .ask, 0x3FA66666#32, 0x447A0000#32, 0x3EA66666#32, 0#32, true, 0, 0⟩ := by decide

/-- B5: the shift saturates, and `bm.S` is half of the stored shift. -/
theorem test_binit_fsk_limit :
    bmAfter (.binitFsk 0x3F800000#32 0x45FA0000#32 0x459C4000#32 true) (start [] []) =
      some ⟨true, .fsk, 0x3F800000#32, 0x45FA0000#32, 0x447A0000#32, 0x43FA0000#32, true, 0, 0⟩ := by
  decide

/-- N5: the same at inexact decimals. -/
theorem test_binit_fsk_rounded :
    bmAfter (.binitFsk 0x3F800000#32 0x447A1333#32 0x4E6E6B28#32 true) (start [] []) =
      some ⟨true, .fsk, 0x3F800000#32, 0x447A1333#32, 0x42FA1333#32, 0x427A1333#32, true, 0, 0⟩ := by
  decide

/-- B9: the upper side of the clamp. -/
theorem test_binit_psk_upper :
    bmAfter (.binitPsk 0x3FC00000#32 0x447A0000#32 0x40000000#32 true) (start [] []) =
      some ⟨true, .psk, 0x3FC00000#32, 0x447A0000#32, 0x3FC90FDB#32, 0#32, true, 0, 0⟩ := by decide

/-- B10 and B11: the lower side, and `-0.0`, which is not below `+0.0`. -/
theorem test_binit_psk_lower :
    (bmAfter (.binitPsk 0x3FC00000#32 0x447A0000#32 0xBF800000#32 true) (start [] [])).map (·.k) =
        some 0x00000000#32 ∧
      (bmAfter (.binitPsk 0x3FC00000#32 0x447A0000#32 0x80000000#32 true) (start [] [])).map (·.k) =
        some 0x80000000#32 := by decide

/-- B12 from a configured state (R205): neither `bm.K` nor `bm.S` is written. -/
theorem test_binit_u3_keeps :
    bmAfter (.binitU3 0x3F800000#32 0x447A0000#32 0x3F000000#32 false) (afterB4 []) =
      some ⟨true, .u3, 0x3F800000#32, 0x447A0000#32, 0x43C80000#32, 0x43480000#32, true, 0, 0⟩ := by
  decide

/-! ### The value commands -/

/-- N1: three roundings of the AM formula. -/
theorem test_aval_am_rounded :
    seenAfter (.aval 0x3E4CCCCD#32)
        (analog (am .am 0x3DCCCCCD#32 0x447A0000#32 0x3E99999A#32) [0x3F333333#32]) =
      some ([some 0x3DE56042#32], [.get .a 0x3F333333#32]) := by decide

/-- N4: FM sends the instantaneous frequency before the sample is taken. -/
theorem test_aval_fm_rounded :
    seenAfter (.aval 0x3DCCCCCD#32)
        (analog (am .fm 0x3F800000#32 0x447A1333#32 0x42053333#32) [0x3F333333#32]) =
      some ([some 0x3F333333#32], [.setFreq .a 0x447AE852#32, .get .a 0x3F333333#32]) := by decide

/-- Q2: the quantiser truncates toward zero. -/
theorem test_asmp_truncates :
    seenAfter (.asmp 0x00000000#32)
        (analog (am .am 0x3FC00000#32 0x447A0000#32 0x00000000#32) [0xBA800000#32]) =
      some ([some 0xFFFFFFFF#32], [.get .a 0xBA800000#32]) := by decide

/-- Q13 and Q14: the smallest sample that fits, and the first that does not. -/
theorem test_asmp_range :
    (seenAfter (.asmp 0xC2880080#32)
        (analog (am .am 0x40000000#32 0x447A0000#32 0x3F000000#32) [0x3F800000#32])).map (·.1) =
        some [some 0xFFFF8000#32] ∧
      refusalOf (exec (.asmp 0xC2880100#32)
        (analog (am .am 0x40000000#32 0x447A0000#32 0x3F000000#32) [0x3F800000#32])) =
        some .quantizerRange := by decide

/-- V25: the flip of a zero is `-0.0`. -/
theorem test_bval_psk_flip :
    seenAfter (.bval 1#8) (afterB8 [0x00000000#32]) =
      some ([some 0x80000000#32], [.get .b 0x00000000#32]) := by decide

/-- V40: symbol 0 sends the lower frequency. -/
theorem test_bval_fsk_low :
    seenAfter (.bval 0#8) (afterB4 [0x3F000000#32]) =
      some ([some 0x3F000000#32], [.setFreq .b 0x45F3C000#32, .get .b 0x3F000000#32]) := by decide

/-- N7: the flipped product is quantised. -/
theorem test_bsmp_psk_rounded :
    seenAfter (.bsmp 1#8)
        (binary (bm .psk 0x3FA66666#32 0x447A0000#32 0x3F333333#32 0#32) [0x3F666666#32]) =
      some ([some 0xFFFFFB52#32], [.get .b 0x3F666666#32]) := by decide

/-- N8: the halved product is quantised. -/
theorem test_bsmp_ask_rounded :
    seenAfter (.bsmp 1#8)
        (binary (bm .ask 0x3FA66666#32 0x447A0000#32 0x3EA66666#32 0#32) [0x3F666666#32]) =
      some ([some 0x00000257#32], [.get .b 0x3F666666#32]) := by decide

/-- S10, its first command: position 7 is read and the cursor wraps. -/
theorem test_sym_wraps :
    (nextOf (exec (.sym 0x80#8) ((start [] []).setCursor 7#3))).map (fun t => (t.results, t.sx.cursor)) =
      some ([some 1#32], 0#3) := by decide

/-- S2: the least significant bit first. -/
theorem test_sym_first :
    (nextOf (exec (.sym 0xB2#8) (start [] []))).map (fun t => (t.results, t.sx.cursor)) =
      some ([some 0#32], 1#3) := by decide

/-! ### Verdicts -/

/-- X1, X2: an unconfigured AnalogModulator. -/
theorem test_not_configured_analog :
    faultOf (exec (.aval 0x3F000000#32) (start [] [])) = some .notConfigured ∧
      faultOf (exec (.asmp 0x3F000000#32) (start [] [])) = some .notConfigured := by decide

/-- X3, X4, X5: an unconfigured BinaryModulator, tested before the symbol. -/
theorem test_not_configured_binary :
    faultOf (exec (.bval 0#8) (start [] [])) = some .notConfigured ∧
      faultOf (exec (.bsmp 1#8) (start [] [])) = some .notConfigured ∧
      faultOf (exec (.bval 2#8) (start [] [])) = some .notConfigured := by decide

/-- X6, X7: no oscillator bound, tested after the message. -/
theorem test_no_oscillator_analog :
    faultOf (exec (.aval 0x3F000000#32)
        (analog ⟨true, .am, 0x3F800000#32, 0x447A0000#32, 0x3F000000#32, false⟩ [])) =
        some .noOscillator ∧
      refusalOf (exec (.aval 0x7F800000#32)
        (analog ⟨true, .am, 0x3F800000#32, 0x447A0000#32, 0x3F000000#32, false⟩ [])) =
        some .nonFiniteOperand := by decide

/-- X9, X10, X12: no oscillator bound, tested after the symbol; a symbol out of the domain. -/
theorem test_no_oscillator_binary :
    faultOf (exec (.bval 0#8)
        (binary ⟨true, .psk, 0x3FC00000#32, 0x447A0000#32, 0x3F800000#32, 0#32, false, 0, 0⟩ [])) =
        some .noOscillator ∧
      refusalOf (exec (.bval 2#8)
        (binary ⟨true, .psk, 0x3FC00000#32, 0x447A0000#32, 0x3F800000#32, 0#32, false, 0, 0⟩ [])) =
        some .symbolOutOfDomain ∧
      refusalOf (exec (.bsmp 255#8) (afterB8 [])) = some .symbolOutOfDomain := by decide

/-! ### Witnesses: each statement with hypotheses has a state and operands that meet them all -/

/-- A frame that decodes to a command and one that selects no row: the three clauses of
`DecodeFollowsOpcodeMap`. -/
theorem witness_DecodeFollowsOpcodeMap :
    decode ⟨0x00000115#32, 0#32, 0#32, 0#32⟩ = .command (.binitFsk 0#32 0#32 0#32 true) ∧
      (∃ row ∈ opcodeTable, row.selects ⟨0x00000115#32, 0#32, 0#32, 0#32⟩ = true) ∧
      (∀ row ∈ opcodeTable, row.selects ⟨0x00000044#32, 0#32, 0#32, 0#32⟩ = false) := by decide

/-- A pending frame, reserved and not. -/
theorem witness_ReservedFramesAreRefused :
    ((start [] []).setInbox [.command ⟨0#32, 0#32, 0#32, 0#32⟩]).inbox =
        .command ⟨0#32, 0#32, 0#32, 0#32⟩ :: [] ∧
      decode ⟨0#32, 0#32, 0#32, 0#32⟩ = .reservedCommand ∧
      decode ⟨0x08#32, 0#32, 0#32, 0#32⟩ ≠ .reservedCommand := by decide

/-- A frame with ignored fields that are not 0 (E14). -/
theorem witness_DecodedFrameIsEncodingButForIgnoredFields :
    decode ⟨0x00FF0108#32, 1#32, 2#32, 3#32⟩ = .command (.aval 1#32) := by decide

/-- A pending frame that decodes. -/
theorem witness_StepRunsDecodedCommand :
    ((start [] []).setInbox [.command ⟨0x00B20028#32, 0#32, 0#32, 0#32⟩]).inbox =
        .command ⟨0x00B20028#32, 0#32, 0#32, 0#32⟩ :: [] ∧
      decode ⟨0x00B20028#32, 0#32, 0#32, 0#32⟩ = .command (.sym 0xB2#8) := by decide

/-- Nothing is pending after reset. -/
theorem witness_StepHoldsStateWhileNothingIsPending : State.reset.inbox = [] := by decide

/-- A pending reset. -/
theorem witness_ResetMoveClearsTheConfiguration :
    ((afterI1 []).setInbox [.reset]).inbox = .reset :: [] := by decide

/-- Finite operands for the INITs, the largest finite pattern and the least subnormal among them. -/
theorem witness_AinitAmConfigures :
    isfinite 0x7F7FFFFF#32 = true ∧ isfinite 0xFF7FFFFF#32 = true ∧ isfinite 0x00000001#32 = true := by
  decide

/-- Finite operands (I4). -/
theorem witness_AinitFmConfigures :
    isfinite 0x40A00000#32 = true ∧ isfinite 0x447A0000#32 = true ∧ isfinite 0x43480000#32 = true := by
  decide

/-- Finite operands (I8). -/
theorem witness_AinitPmConfigures :
    isfinite 0x3F800000#32 = true ∧ isfinite 0x447A0000#32 = true ∧ isfinite 0x3F800000#32 = true := by
  decide

/-- Finite operands (I11). -/
theorem witness_AinitU3KeepsParameter :
    isfinite 0x40400000#32 = true ∧ isfinite 0x46EA6000#32 = true ∧ isfinite 0x3F000000#32 = true := by
  decide

/-- Finite operands (B2). -/
theorem witness_BinitAskConfigures :
    isfinite 0x40400000#32 = true ∧ isfinite 0x447A0000#32 = true ∧ isfinite 0x3F400000#32 = true := by
  decide

/-- Finite operands (B7). -/
theorem witness_BinitFskConfigures :
    isfinite 0x3F800000#32 = true ∧ isfinite 0x45FA0000#32 = true ∧ isfinite 0xC4160000#32 = true := by
  decide

/-- Finite operands (B11). -/
theorem witness_BinitPskConfigures :
    isfinite 0x3FC00000#32 = true ∧ isfinite 0x447A0000#32 = true ∧ isfinite 0x80000000#32 = true := by
  decide

/-- Finite operands (B12). -/
theorem witness_BinitU3KeepsParameters :
    isfinite 0x3F800000#32 = true ∧ isfinite 0x447A0000#32 = true ∧ isfinite 0x3F000000#32 = true := by
  decide

/-- V1. -/
theorem witness_AvalAmReturnsFormula :
    (afterI1 []).am.cfg = true ∧ (afterI1 []).am.ty = .am ∧ isfinite 0x3F000000#32 = true ∧
      (afterI1 []).am.oscBound = true := by decide

/-- An FM unit configured and bound: the registers I4 stores. -/
def fmState (oscA : List Word) : State :=
  analog (am .fm 0x40000000#32 0x447A0000#32 0x42FA0000#32) oscA

/-- A PM unit configured and bound, as after I9. -/
def pmState (oscA : List Word) : State :=
  analog (am .pm 0x3F800000#32 0x447A0000#32 0x3F000000#32) oscA

/-- An ASK unit configured and bound, as after B1. -/
def askState (oscB : List Word) : State :=
  binary (bm .ask 0x40000000#32 0x447A0000#32 0x3E800000#32 0#32) oscB

/-- A unit of the unrecognised type, configured and not bound, as after I11 with `osc = 0`. -/
def analogU3 : State := analog ⟨true, .u3, 0x40000000#32, 0x463B8000#32, 0#32, false⟩ []

/-- A unit of the unrecognised type, configured and not bound, as after B12. -/
def binaryU3 : State := binary ⟨true, .u3, 0x3F800000#32, 0x447A0000#32, 0#32, 0#32, false, 0, 0⟩ []

/-- V8. -/
theorem witness_AvalFmSendsFrequency :
    (fmState []).am.cfg = true ∧ (fmState []).am.ty = .fm ∧ isfinite 0x3F000000#32 = true ∧
      (fmState []).am.oscBound = true := by decide

/-- V13. -/
theorem witness_AvalPmSendsPhase :
    (pmState []).am.cfg = true ∧ (pmState []).am.ty = .pm ∧ isfinite 0x3F000000#32 = true ∧
      (pmState []).am.oscBound = true := by decide

/-- V17: no oscillator bound, and any message. -/
theorem witness_UnrecognisedAnalogTypeReturnsZero :
    analogU3.params.valid = true ∧ analogU3.am.cfg = true ∧ analogU3.am.ty = .u3 := by decide

/-- V1. -/
theorem witness_AsmpReturnsSample :
    (afterI1 [0x3F000000#32]).params.valid = true ∧ (afterI1 [0x3F000000#32]).am.cfg = true ∧
      (afterI1 [0x3F000000#32]).am.ty ≠ .u3 ∧ isfinite 0x3F000000#32 = true ∧
      (afterI1 [0x3F000000#32]).am.oscBound = true ∧
      fitsSample (afterI1 [0x3F000000#32]).params (analogVolts (afterI1 [0x3F000000#32]).am 0x3F000000#32
        ((afterI1 [0x3F000000#32]).sample .a)) := by
  refine ⟨by decide, by decide, by decide, by decide, by decide, by decide, by decide, by decide⟩

/-- V30 and V31: both symbols. -/
theorem witness_BvalAskReturnsFixedRatio :
    (askState []).bm.cfg = true ∧ (askState []).bm.ty = .ask ∧ (0#8).toNat ≤ 1 ∧ (1#8).toNat ≤ 1 ∧
      (askState []).bm.oscBound = true := by decide

/-- V40 and V41: both symbols. -/
theorem witness_BvalFskSendsTone :
    (afterB4 []).bm.cfg = true ∧ (afterB4 []).bm.ty = .fsk ∧ (0#8).toNat ≤ 1 ∧ (1#8).toNat ≤ 1 ∧
      (afterB4 []).bm.oscBound = true := by decide

/-- V20 and V21: both symbols. -/
theorem witness_BvalPskFlipsSign :
    (afterB8 []).bm.cfg = true ∧ (afterB8 []).bm.ty = .psk ∧ (0#8).toNat ≤ 1 ∧ (1#8).toNat ≤ 1 ∧
      (afterB8 []).bm.oscBound = true := by decide

/-- V48 and V49: no oscillator bound, and any symbol. -/
theorem witness_UnrecognisedBinaryTypeReturnsZero :
    binaryU3.params.valid = true ∧ binaryU3.bm.cfg = true ∧ binaryU3.bm.ty = .u3 := by decide

/-- V21. -/
theorem witness_BsmpReturnsSample :
    (afterB8 [0x3F000000#32]).params.valid = true ∧ (afterB8 [0x3F000000#32]).bm.cfg = true ∧
      (afterB8 [0x3F000000#32]).bm.ty ≠ .u3 ∧ (1#8).toNat ≤ 1 ∧
      (afterB8 [0x3F000000#32]).bm.oscBound = true ∧
      fitsSample (afterB8 [0x3F000000#32]).params (binaryVolts (afterB8 [0x3F000000#32]).bm 1#8
        ((afterB8 [0x3F000000#32]).sample .b)) := by
  refine ⟨by decide, by decide, by decide, by decide, by decide, by decide, by decide, by decide⟩

/-- V1: the `GetValue` ends ok, adds one result, and its voltage fits. -/
theorem witness_GetSampleQuantizesOneGetValue :
    (afterI1 [0x3F000000#32]).params.valid = true ∧
      ((∃ m, Instr.aval 0x3F000000#32 = .aval m ∧ Instr.asmp 0x3F000000#32 = .asmp m) ∨
        ∃ sy, Instr.aval 0x3F000000#32 = .bval sy ∧ Instr.asmp 0x3F000000#32 = .bsmp sy) ∧
      (∃ t, exec (.aval 0x3F000000#32) (afterI1 [0x3F000000#32]) = .next t ∧
        t.results = (afterI1 [0x3F000000#32]).results ++ [some 0x3F600000#32]) ∧
      fitsSample params 0x3F600000#32 :=
  ⟨by decide, .inl ⟨_, rfl, rfl⟩,
    by
      obtain ⟨t, h⟩ := exists_next (o := exec (.aval 0x3F000000#32) (afterI1 [0x3F000000#32])) (by decide)
      have hr : (nextOf (exec (.aval 0x3F000000#32) (afterI1 [0x3F000000#32]))).map (·.results) =
          some [some 0x3F600000#32] := by decide
      rw [h] at hr
      exact ⟨t, h, Option.some.inj hr⟩,
    by decide, by decide, by decide⟩

/-- X14 and X6: the voltage that does not fit, and the verdicts of `GetValue`. -/
theorem witness_GetSampleQuantizesOneGetValue_verdicts :
    ¬ fitsSample params 0x42000000#32 ∧
      faultOf (exec (.aval 0#32) (start [] [])) = some .notConfigured ∧
      refusalOf (exec (.aval 0x7FC00000#32) (afterI1 [])) = some .nonFiniteOperand := by
  refine ⟨fun h => ?_, by decide, by decide⟩
  exact absurd h.2.2 (by decide)

/-- X8 and I12: both clauses, each with an operand that is not finite. -/
theorem witness_NonFiniteOperandsAreRefused :
    ¬ (isfinite 0x7FC00000#32 = true ∧ isfinite 0x3F800000#32 = true ∧ isfinite 0x3F800000#32 = true) ∧
      (afterI1 []).am.cfg = true ∧ (afterI1 []).am.ty ≠ .u3 ∧ isfinite 0x7FC00000#32 = false := by
  decide

/-- X1 and X3. -/
theorem witness_UnconfiguredUnitsFault :
    isAnalogValue (.aval 0x3F000000#32) = true ∧ isBinaryValue (.bval 0#8) = true ∧
      (start [] []).am.cfg = false ∧ (start [] []).bm.cfg = false := by decide

/-- X6: the AnalogModulator. -/
theorem witness_UnboundOscillatorFaults_analog :
    (analog ⟨true, .am, 0#32, 0#32, 0#32, false⟩ []).am.cfg = true ∧
      (analog ⟨true, .am, 0#32, 0#32, 0#32, false⟩ []).am.ty ≠ .u3 ∧ isfinite 0x3F000000#32 = true ∧
      (analog ⟨true, .am, 0#32, 0#32, 0#32, false⟩ []).am.oscBound = false := by decide

/-- X9: the BinaryModulator, at the larger symbol. -/
theorem witness_UnboundOscillatorFaults_binary :
    (binary ⟨true, .psk, 0#32, 0#32, 0#32, 0#32, false, 0, 0⟩ []).bm.cfg = true ∧
      (binary ⟨true, .psk, 0#32, 0#32, 0#32, 0#32, false, 0, 0⟩ []).bm.ty ≠ .u3 ∧ (1#8).toNat ≤ 1 ∧
      (binary ⟨true, .psk, 0#32, 0#32, 0#32, 0#32, false, 0, 0⟩ []).bm.oscBound = false := by decide

/-- X11 and X12: the least and the largest symbol out of the domain. -/
theorem witness_OutOfDomainSymbolsAreRefused :
    (afterB8 []).bm.cfg = true ∧ (afterB8 []).bm.ty ≠ .u3 ∧ 2 ≤ (2#8).toNat ∧ 2 ≤ (255#8).toNat := by
  decide

/-- X1 a fault, X8, X11 and X14 the three refusals. -/
theorem witness_VerdictsComeFromTheirCommands :
    faultOf (exec (.aval 0#32) (start [] [])) = some .notConfigured ∧
      refusalOf (exec (.aval 0x7FC00000#32) (afterI1 [])) = some .nonFiniteOperand ∧
      refusalOf (exec (.bval 2#8) (afterB8 [])) = some .symbolOutOfDomain ∧
      refusalOf (exec (.asmp 0x42700000#32)
        (analog (am .am 0x40000000#32 0x447A0000#32 0x3F000000#32) [0x3F800000#32])) =
        some .quantizerRange := by decide

/-- The cursor is 0 after reset. -/
theorem witness_Sym8ResultsRebuildByte : (start [] []).sx.cursor = 0#3 := by decide

/-- V1 ends ok: it is neither an INIT nor a `SYM`. -/
theorem witness_RegistersAreWrittenByTheirUnitOnly :
    (∃ t, exec (.aval 0x3F000000#32) (afterI1 [0x3F000000#32]) = .next t) ∧
      isAinit (.aval 0x3F000000#32) = false ∧ isBinit (.aval 0x3F000000#32) = false ∧
      isSym (.aval 0x3F000000#32) = false :=
  ⟨exists_next (by decide), by decide, by decide, by decide⟩

/-- I1 ends ok. -/
theorem witness_StatusBitsRecordInits :
    ∃ t, exec (.ainitAm 0x3FC00000#32 0x447A0000#32 0x3F000000#32 true) (start [] []) = .next t :=
  exists_next (by decide)

/-- V8 ends ok. -/
theorem witness_CommandsEmitTheirEvents :
    ∃ t, exec (.aval 0x3F000000#32) (fmState [0x3E800000#32]) = .next t := exists_next (by decide)

/-- V22 ends ok. -/
theorem witness_OscGetUsesUpOneAnswer :
    ∃ t, exec (.bval 0#8) (afterB8 [0xBF800000#32]) = .next t := exists_next (by decide)

/-- V20 ends ok. -/
theorem witness_CommandsReturnOneResult :
    ∃ t, exec (.bval 0#8) (afterB8 [0x3F000000#32]) = .next t := exists_next (by decide)

/-- I1 and B12 end ok: both units, with and without an oscillator. -/
theorem witness_InitRestartsOrKeepsTheOscillator :
    (∃ t, exec (.ainitAm 0x3FC00000#32 0x447A0000#32 0x3F000000#32 true) (start [] []) = .next t) ∧
      ∃ t, exec (.binitU3 0x3F800000#32 0x447A0000#32 0x3F000000#32 false) (start [] []) = .next t :=
  ⟨exists_next (by decide), exists_next (by decide)⟩

/-- V8 and V13 end ok. -/
theorem witness_AnalogSamplesRetuneOnlyByType :
    (∃ t, exec (.aval 0x3F000000#32) (fmState [0x3E800000#32]) = .next t) ∧
      ∃ t, exec (.asmp 0x3F000000#32) (pmState [0x3F400000#32]) = .next t :=
  ⟨exists_next (by decide), exists_next (by decide)⟩

/-- A command of each kind in the three clauses. -/
theorem witness_UnitsAreIndependent :
    (isAinit (.ainitAm 0#32 0#32 0#32 true) = true ∨ isAnalogValue (.ainitAm 0#32 0#32 0#32 true) = true) ∧
      (isBinit (.bsmp 0#8) = true ∨ isBinaryValue (.bsmp 0#8) = true) ∧ isSym (.sym 0xB2#8) = true := by
  decide

/-- A value command of the BinaryModulator. -/
theorem witness_BinaryValueCommandsDoNotReadK : isBinaryValue (.bval 1#8) = true := by decide

/-- Two `AVAL` in type AM with both answers 0.5 (the tenth item of section 1 of the vectors). -/
theorem witness_HeldPhaseRepeatsTheResult_analog :
    (afterI1 [0x3F000000#32, 0x3F000000#32]).am.ty = .am ∧
      ∃ t, execAll [.aval 0x3F000000#32, .aval 0x3F000000#32] (afterI1 [0x3F000000#32, 0x3F000000#32]) =
          .next t ∧
        HeldPhase .a 0x3F000000#32 (t.trace.drop (afterI1 [0x3F000000#32, 0x3F000000#32]).trace.length) := by
  refine ⟨by decide, ?_⟩
  obtain ⟨t, h⟩ := exists_next (o := execAll [.aval 0x3F000000#32, .aval 0x3F000000#32]
    (afterI1 [0x3F000000#32, 0x3F000000#32])) (by decide)
  have ht : (nextOf (execAll [.aval 0x3F000000#32, .aval 0x3F000000#32]
      (afterI1 [0x3F000000#32, 0x3F000000#32]))).map (·.trace) =
      some [.get .a 0x3F000000#32, .get .a 0x3F000000#32] := by decide
  rw [h] at ht
  refine ⟨t, h, fun c hc => ?_⟩
  have := List.mem_of_mem_drop hc
  rw [show t.trace = _ from Option.some.inj ht] at this
  simpa using this

/-- Two `BVAL` in type PSK with both answers 0.5. -/
theorem witness_HeldPhaseRepeatsTheResult_binary :
    ((afterB8 [0x3F000000#32, 0x3F000000#32]).bm.ty = .ask ∨
        (afterB8 [0x3F000000#32, 0x3F000000#32]).bm.ty = .psk) ∧
      ∃ t, execAll [.bval 1#8, .bval 1#8] (afterB8 [0x3F000000#32, 0x3F000000#32]) = .next t ∧
        HeldPhase .b 0x3F000000#32 (t.trace.drop (afterB8 [0x3F000000#32, 0x3F000000#32]).trace.length) := by
  refine ⟨by decide, ?_⟩
  obtain ⟨t, h⟩ := exists_next (o := execAll [.bval 1#8, .bval 1#8]
    (afterB8 [0x3F000000#32, 0x3F000000#32])) (by decide)
  have ht : (nextOf (execAll [.bval 1#8, .bval 1#8] (afterB8 [0x3F000000#32, 0x3F000000#32]))).map
      (·.trace) = some [.get .b 0x3F000000#32, .get .b 0x3F000000#32] := by decide
  rw [h] at ht
  refine ⟨t, h, fun c hc => ?_⟩
  have := List.mem_of_mem_drop hc
  rw [show t.trace = _ from Option.some.inj ht] at this
  simpa using this

/-- The clauses of `SharedNumericLaws`: a request on the limit and one above it, a range (and
one without an upper end, `hi` being +infinity), a depth, and two parameter sets that differ only in what the quantiser may not read. -/
theorem witness_SharedNumericLaws :
    (isfinite 0x40000000#32 = true ∧ isNaN 0x40000000#32 = false ∧
        fgt 0x40000000#32 0x40000000#32 = false ∧ fgt 0x40400000#32 0x40000000#32 = true) ∧
      (isfinite 0x40400000#32 = true ∧ isfinite fZero = true ∧ isNaN params.pi2 = false ∧
        fgt fZero params.pi2 = false ∧ isNaN 0x7F800000#32 = false ∧
        fgt fZero 0x7F800000#32 = false) ∧
      isfinite 0xC0133333#32 = true ∧
      (params.mvRes = Params.mvRes { params with vpp := 0x3F800000#32 } ∧
        params.sampleBits = Params.sampleBits { params with vpp := 0x3F800000#32 }) := by decide

/-- A depth that wraps, and the largest one that does not. -/
theorem witness_AmDepthWrapsExactly :
    isfinite 0xC0133333#32 = true ∧
      (isfinite 0x3F7FFFFF#32 = true ∧ signBit 0x3F7FFFFF#32 = false ∧ flt 0x3F7FFFFF#32 fOne = true) := by
  decide

/-- The least operands the clauses admit, and the largest finite one. -/
theorem witness_PowerOfTwoScalingIsExact :
    isfinite 0x00000001#32 = true ∧ (isfinite 0x01000000#32 = true ∧ 2 ≤ expField 0x01000000#32) ∧
      (isfinite 0x01800000#32 = true ∧ 3 ≤ expField 0x01800000#32) ∧
      (isfinite 0x7F7FFFFF#32 = true ∧ 3 ≤ expField 0x7F7FFFFF#32) := by decide

/-- V22: the lower end of the unit interval; and its upper end. -/
theorem witness_UnitSampleBoundsKeyedVoltage :
    (∃ t, exec (.bval 0#8) (afterB8 [0xBF800000#32]) = .next t) ∧
      UnitSample ((afterB8 [0xBF800000#32]).sample .b) ∧
      isfinite (afterB8 [0xBF800000#32]).bm.a = true ∧ UnitSample 0x3F800000#32 :=
  ⟨exists_next (by decide), ⟨by decide, by decide, by decide⟩, by decide,
    ⟨by decide, by decide, by decide⟩⟩

/-- A configured state with a pending command: the invariant holds and the step ends ok. -/
theorem witness_StepKeepsMachineInvariant :
    ((afterB4 [0x3F000000#32]).setInbox [.command (encode (.bval 1#8))]).Inv ∧
      ∃ t, step ((afterB4 [0x3F000000#32]).setInbox [.command (encode (.bval 1#8))]) = .next t :=
  ⟨⟨by decide, nofun, fun _ => ⟨by decide, by decide, by decide, by decide⟩, nofun, fun _ => rfl, nofun⟩,
    exists_next (by decide)⟩

/-- A reset and I1 pending, and a reset and B8 pending. -/
theorem witness_BringUpReachesReadyState :
    (start [] []).params.valid = true ∧ isfinite 0x3FC00000#32 = true ∧ isfinite 0x447A0000#32 = true ∧
      isfinite 0x3F000000#32 = true ∧
      ((start [] []).setInbox [.reset,
          .command (encode (.ainitAm 0x3FC00000#32 0x447A0000#32 0x3F000000#32 true))]).inbox =
        .reset :: .command (encode (.ainitAm 0x3FC00000#32 0x447A0000#32 0x3F000000#32 true)) :: [] ∧
      ((start [] []).setInbox [.reset,
          .command (encode (.binitPsk 0x3FC00000#32 0x447A0000#32 0x3F000000#32 true))]).inbox =
        .reset :: .command (encode (.binitPsk 0x3FC00000#32 0x447A0000#32 0x3F000000#32 true)) :: [] := by
  decide

end Sys2Proof.Tests
end

section
/-! SUPPORT. Every step keeps the machine's invariant (spec/10_state.md R40): the laws of arithmetic the
stored parameters rest on, one rule per state operation, one lemma per shared operation of the units,
then all commands and the step. -/

namespace Sys2Proof.Machine

/-! ### FLOATs that are not negative, and the parameters above zero -/

/-- A FLOAT with the sign bit clear is not below `+0.0` (R97). -/
theorem flt_fZero_of_signBit {x : Word} (h : signBit x = false) : flt x fZero = false := by
  have hzero : key fZero = 0 := by decide
  have hkey : key x = mag x := by simp [key, h]
  rw [← Bool.not_eq_true, flt_iff, hzero, hkey]
  omega

/-- A positive finite pattern has the sign bit clear (R97). -/
theorem signBit_of_positiveFinite {w : Word} (h : Config.positiveFinite w = true) :
    signBit w = false := by
  simp only [Config.positiveFinite, Bool.and_eq_true, decide_eq_true_eq] at h
  rw [signBit_iff, decide_eq_false_iff_not]
  omega

/-- A positive finite pattern is finite (R97). -/
theorem isfinite_of_positiveFinite {w : Word} (h : Config.positiveFinite w = true) :
    isfinite w = true := by
  simp only [Config.positiveFinite, Bool.and_eq_true, decide_eq_true_eq] at h
  rw [isfinite_eq, decide_eq_true_eq, expField]
  omega

/-- R8 admits only positive finite values of `PI_2`. -/
theorem positiveFinite_pi2_of_valid {p : Params} (h : p.valid = true) :
    Config.positiveFinite p.pi2 = true := by
  simp only [Params.valid, Bool.and_eq_true] at h
  obtain ⟨⟨⟨⟨-, hpi2⟩, -⟩, -⟩, -⟩ := h
  exact hpi2

/-! ### The two-sided clamp -/

section
variable {x lo hi : Word}

/-- A value clamped to an interval is not below its lower end (R139, R149). -/
theorem flt_clampRange (h : fgt lo hi = false) : flt (clampRange x lo hi) lo = false := by
  unfold clampRange
  split
  · exact flt_self lo
  · split
    · rwa [← fgt_eq_flt]
    · simp_all

/-- A value clamped to an interval is not above its upper end (R139, R149). -/
theorem fgt_clampRange (h : fgt lo hi = false) : fgt (clampRange x lo hi) hi = false := by
  unfold clampRange
  split
  · exact h
  · split
    · exact fgt_self hi
    · simp_all

/-- A two-sided clamp of numbers is a number (R139). -/
theorem isNaN_clampRange (hx : isNaN x = false) (hlo : isNaN lo = false) (hhi : isNaN hi = false) :
    isNaN (clampRange x lo hi) = false := by
  obtain h | h | h := clampRange_eq_or x lo hi <;> rwa [h]

end

/-! ### The fractional part -/

/-- Every magnitude is a significand below 2^24 times a power of two (R97). -/
theorem magOf_eq_mul_two_pow (m : Nat) : ∃ q k, q < 2 ^ 24 ∧ magOf m = q * 2 ^ k := by
  have hr := Nat.mod_lt m (show 2 ^ 23 > 0 by decide)
  unfold magOf
  split
  · exact ⟨m % 2 ^ 23, 0, by omega, by rw [pow_zero, Nat.mul_one]⟩
  · exact ⟨2 ^ 23 + m % 2 ^ 23, m / 2 ^ 23 - 1, by omega, rfl⟩

/-- The remainder of a magnitude by the unit 1.0, which is 2^149 of the least subnormals, again has a
significand below 2^24 (R131). -/
theorem magOf_mod_one (m : Nat) : ∃ q k, q < 2 ^ 24 ∧ magOf m % 2 ^ 149 = q * 2 ^ k := by
  obtain ⟨q, k, hq, hm⟩ := magOf_eq_mul_two_pow m
  rw [hm]
  rcases Nat.le_total k 149 with hk | hk
  · refine ⟨q % 2 ^ (149 - k), k, Nat.lt_of_le_of_lt (Nat.mod_le _ _) hq, ?_⟩
    rw [← Nat.mul_mod_mul_right, ← pow_add, Nat.sub_add_cancel hk]
  · exact ⟨0, 0, by decide, by
      rw [Nat.zero_mul, Nat.mod_eq_zero_of_dvd (Dvd.dvd.mul_left (pow_dvd_pow 2 hk) q)]⟩

/-- The fractional part of a magnitude is representable, so rounding leaves it as it is (R131). -/
theorem magOf_roundMag_mod_one (m : Nat) :
    magOf (roundMag (magOf m % 2 ^ 149) 1) = magOf m % 2 ^ 149 := by
  have hlt := Nat.mod_lt (magOf m) (Nat.two_pow_pos 149)
  obtain ⟨q, k, hq, hm⟩ := magOf_mod_one m
  rw [hm] at hlt ⊢
  exact magOf_roundMag hq (hlt.trans (pow_lt_pow_right₀ one_lt_two (by decide)))

/-- A rounded FLOAT is no NaN (R97, R130). -/
theorem isNaN_pack_roundMag (neg : Bool) (n d : Nat) : isNaN (pack neg (roundMag n d)) = false := by
  have hle := roundMag_le_infBits n d
  simp only [infBits] at hle
  have hlt := roundMag_lt n d
  rw [isNaN, expField_pack hlt, fracField_pack hlt, ← Bool.not_eq_true, Bool.and_eq_true,
    decide_eq_true_eq, decide_eq_true_eq]
  omega

/-- `fabs` keeps the magnitude bits and clears the sign (R131). -/
theorem fabs_eq_pack (x : Word) : fabs x = pack false (x.toNat % 2 ^ 31) := by
  apply BitVec.eq_of_toNat_eq
  rw [pack_toNat (Nat.mod_lt _ (by decide)), fabs_eq, BitVec.toNat_and]
  simpa using Nat.and_two_pow_sub_one_eq_mod x.toNat 31

/-- What `AINIT.AM` stores in `am.K`, for a finite operand: the rounded fractional part of its
magnitude (R131, R162). -/
theorem fmod1_fabs_eq_pack {k : Word} (hk : isfinite k = true) :
    fmod1 (fabs k) = pack false (roundMag (magOf (k.toNat % 2 ^ 31) % 2 ^ 149) 1) := by
  have hlt : k.toNat % 2 ^ 31 < 2 ^ 31 := Nat.mod_lt _ (by decide)
  have hexp : k.toNat % 2 ^ 31 / 2 ^ 23 ≠ 255 := by
    rw [isfinite_eq, decide_eq_true_eq, expField] at hk
    omega
  rw [fabs_eq_pack, fmod1_eq, ieeeMod1, signBit_pack hlt, expField_pack hlt, mag_pack hlt,
    Bool.false_or, if_neg (by rwa [decide_eq_true_eq])]

/-- The depth is exactly the fractional part of the operand's magnitude (R131, R162). -/
theorem key_fmod1_fabs {k : Word} (hk : isfinite k = true) :
    key (fmod1 (fabs k)) = ((mag k % 2 ^ 149 : Nat) : Int) := by
  rw [fmod1_fabs_eq_pack hk, key_pack (roundMag_lt _ _), magOf_roundMag_mod_one, mag_eq_magOf]
  rfl

/-- The depth is not negative (R40, R162). -/
theorem flt_fmod1_fabs_fZero {k : Word} (hk : isfinite k = true) :
    flt (fmod1 (fabs k)) fZero = false := by
  rw [fmod1_fabs_eq_pack hk]
  exact flt_fZero_of_signBit (signBit_pack (roundMag_lt _ _))

/-- The depth is below 1.0 (R40, R162). -/
theorem flt_fmod1_fabs_fOne {k : Word} (hk : isfinite k = true) :
    flt (fmod1 (fabs k)) fOne = true := by
  have hone : key fOne = 2 ^ 149 := by decide
  have hnan : isNaN (fmod1 (fabs k)) = false := by
    rw [fmod1_fabs_eq_pack hk]
    exact isNaN_pack_roundMag _ _ _
  have hmod := Nat.mod_lt (mag k) (Nat.two_pow_pos 149)
  rw [flt_iff, key_fmod1_fabs hk, hone]
  exact ⟨hnan, by decide, mod_cast hmod⟩

/-! ### Legal events -/

/-- `OscSetFreq` may go to either port (R64). -/
theorem OscEvent.legal_setFreq (p : Params) (q : OscPort) (hz : Word) :
    (OscEvent.setFreq q hz).Legal p := trivial

/-- `OscSetPhase` may go to port `OSCA` (R65). -/
theorem OscEvent.legal_setPhase (p : Params) (rad : Word) : (OscEvent.setPhase .a rad).Legal p := rfl

/-- `OscGet` may go to either port (R66). -/
theorem OscEvent.legal_get (p : Params) (q : OscPort) (c : Word) : (OscEvent.get q c).Legal p :=
  trivial

/-- The binding event of an INIT carries the clamped amplitude and frequency (R63). -/
theorem initEvents_legal (p : Params) (q : OscPort) (osc : Bool) (a f : Word) :
    ∀ e ∈ initEvents q osc (clampAmplitude p a) (clampFrequency p f), e.Legal p := by
  cases osc with
  | false => exact List.forall_mem_nil _
  | true =>
    exact List.forall_mem_singleton.2 ⟨rfl, rfl, rfl, fgt_clampHi _ _, fgt_clampHi _ _⟩

/-! ### The invariant under the state's operations -/

namespace State.Inv

variable {s t : State}

/-- The frame rule: appending legal events and changing what the invariant does not speak of keeps
it. -/
theorem of_frame {es : List OscEvent} (h : s.Inv) (hparams : t.params = s.params)
    (ham : t.am = s.am) (hbm : t.bm = s.bm) (htrace : t.trace = s.trace ++ es)
    (hes : ∀ e ∈ es, e.Legal s.params) : t.Inv where
  paramsValid := hparams ▸ h.paramsValid
  analog := by rw [ham, hparams]; exact h.analog
  binary := by rw [hbm, hparams]; exact h.binary
  analogBound := ham ▸ h.analogBound
  binaryBound := hbm ▸ h.binaryBound
  traceLegal := by
    rw [htrace, hparams]
    exact List.forall_mem_append.2 ⟨h.traceLegal, hes⟩

theorem emit (h : s.Inv) {es : List OscEvent} (hes : ∀ e ∈ es, e.Legal s.params) :
    (s.emit es).Inv :=
  h.of_frame rfl rfl rfl rfl hes

theorem emitOne (h : s.Inv) {e : OscEvent} (he : e.Legal s.params) : (s.emit [e]).Inv :=
  h.emit (List.forall_mem_singleton.2 he)

theorem takeSample (h : s.Inv) (p : OscPort) : (s.takeSample p).Inv :=
  h.of_frame rfl rfl rfl rfl (List.forall_mem_singleton.2 (OscEvent.legal_get _ _ _))

theorem finish (h : s.Inv) (r : Option Word) : (s.finish r).Inv :=
  h.of_frame rfl rfl rfl (List.append_nil _).symm (List.forall_mem_nil _)

theorem setCursor (h : s.Inv) (c : BitVec 3) : (s.setCursor c).Inv :=
  h.of_frame rfl rfl rfl (List.append_nil _).symm (List.forall_mem_nil _)

theorem setInbox (h : s.Inv) (rest : List HostMove) : (s.setInbox rest).Inv :=
  h.of_frame rfl rfl rfl (List.append_nil _).symm (List.forall_mem_nil _)

theorem setAm (h : s.Inv) {u : AnalogUnit} (hu : u.Inv s.params)
    (hbound : u.oscBound = true → u.cfg = true) : (s.setAm u).Inv :=
  ⟨h.paramsValid, hu, h.binary, hbound, h.binaryBound, h.traceLegal⟩

theorem setBm (h : s.Inv) {u : BinaryUnit} (hu : u.Inv s.params)
    (hbound : u.oscBound = true → u.cfg = true) : (s.setBm u).Inv :=
  ⟨h.paramsValid, h.analog, hu, h.analogBound, hbound, h.traceLegal⟩

/-- After the host's reset neither unit is configured, so R40 claims nothing of them (R46). -/
theorem hostReset (h : s.Inv) : s.hostReset.Inv :=
  ⟨h.paramsValid, nofun, nofun, nofun, nofun, h.traceLegal⟩

end State.Inv

/-! ### The INITs -/

section
variable {s : State} {a f k : Word} {osc : Bool}

/-- An `AINIT` keeps the invariant when the parameter it stores meets R40 for its type. -/
theorem afterAinit_inv {ty : AnalogType} {newK : Word} (h : s.Inv)
    (hu : (afterAinit ty newK a f osc s).am.Inv s.params) : (afterAinit ty newK a f osc s).Inv :=
  ((h.setAm hu fun _ => rfl).emit (initEvents_legal s.params .a osc a f)).finish none

/-- A `BINIT` keeps the invariant when the parameters it stores meet R40 for its type. -/
theorem afterBinit_inv {ty : BinaryType} {newK newS : Word} (h : s.Inv)
    (hu : (afterBinit ty newK newS a f osc s).bm.Inv s.params) :
    (afterBinit ty newK newS a f osc s).Inv :=
  ((h.setBm hu fun _ => rfl).emit (initEvents_legal s.params .b osc a f)).finish none

/-- The modulation depth is at least 0 and below 1 (R40, R162). -/
theorem afterAinitAm_inv (h : s.Inv) (hk : isfinite k = true) :
    (afterAinit .am (fmod1 (fabs k)) a f osc s).Inv :=
  afterAinit_inv h fun _ =>
    ⟨fgt_clampHi _ _, fgt_clampHi _ _, flt_fmod1_fabs_fZero hk, flt_fmod1_fabs_fOne hk⟩

/-- The frequency deviation is limited by the frequency stored with it (R40, R163). -/
theorem afterAinitFm_inv (h : s.Inv) :
    (afterAinit .fm (clampHi k (fdiv (clampFrequency s.params f) fEight)) a f osc s).Inv :=
  afterAinit_inv h fun _ => ⟨fgt_clampHi _ _, fgt_clampHi _ _, fgt_clampHi _ _⟩

/-- The phase deviation is limited by `PI_4` (R40, R164). -/
theorem afterAinitPm_inv (h : s.Inv) :
    (afterAinit .pm (clampHi k s.params.pi4) a f osc s).Inv :=
  afterAinit_inv h fun _ => ⟨fgt_clampHi _ _, fgt_clampHi _ _, fgt_clampHi _ _⟩

/-- The unrecognised analog type has no constraint on the parameter it keeps (R40, R165). -/
theorem afterAinitU3_inv (h : s.Inv) : (afterAinit .u3 s.am.k a f osc s).Inv :=
  afterAinit_inv h fun _ => ⟨fgt_clampHi _ _, fgt_clampHi _ _, trivial⟩

/-- The ASK parameter is limited by the amplitude stored with it (R40, R202). -/
theorem afterBinitAsk_inv (h : s.Inv) :
    (afterBinit .ask (clampHi k (fmul fQuarter (clampAmplitude s.params a))) s.bm.s a f osc s).Inv :=
  afterBinit_inv h fun _ => ⟨fgt_clampHi _ _, fgt_clampHi _ _, fgt_clampHi _ _⟩

/-- The FSK parameter is limited by the frequency stored with it, and the shift is its half (R40,
R203). -/
theorem afterBinitFsk_inv (h : s.Inv) :
    (afterBinit .fsk (fskShift s.params f k) (fdiv (fskShift s.params f k) fTwo) a f osc s).Inv :=
  afterBinit_inv h fun _ => ⟨fgt_clampHi _ _, fgt_clampHi _ _, fgt_clampHi _ _, rfl⟩

/-- The PSK parameter lies between 0 and `PI_2`, an interval because `PI_2` is positive (R8, R40,
R204). -/
theorem afterBinitPsk_inv (h : s.Inv) (hk : isfinite k = true) :
    (afterBinit .psk (clampRange k fZero s.params.pi2) s.bm.s a f osc s).Inv := by
  have hpi := positiveFinite_pi2_of_valid h.paramsValid
  have hnan : isNaN s.params.pi2 = false := isNaN_of_isfinite (isfinite_of_positiveFinite hpi)
  have hint : fgt fZero s.params.pi2 = false := by
    rw [fgt_eq_flt]
    exact flt_fZero_of_signBit (signBit_of_positiveFinite hpi)
  exact afterBinit_inv h fun _ =>
    ⟨fgt_clampHi _ _, fgt_clampHi _ _, isNaN_clampRange (isNaN_of_isfinite hk) (by decide) hnan,
      flt_clampRange hint, fgt_clampRange hint⟩

/-- The unrecognised binary type has no constraint on the parameters it keeps (R40, R205). -/
theorem afterBinitU3_inv (h : s.Inv) : (afterBinit .u3 s.bm.k s.bm.s a f osc s).Inv :=
  afterBinit_inv h fun _ => ⟨fgt_clampHi _ _, fgt_clampHi _ _, trivial⟩

end

/-! ### The value commands -/

section
variable {s : State} {r : Word × State}

/-- `AnalogValue` keeps the invariant: `OscSetPhase` goes to port `OSCA` only (R65, R166). -/
theorem analogValue_inv {m : Word} (h : s.Inv) (hv : analogValue m s = .next r) : r.2.Inv := by
  obtain ⟨-, ⟨-, rfl⟩ | ⟨-, -, ⟨-, rfl⟩ | ⟨-, rfl⟩ | ⟨-, rfl⟩⟩⟩ := analogValue_eq_next.1 hv
  case inl => exact h
  case inr.inl => exact h.takeSample .a
  case inr.inr.inl => exact (h.emitOne (OscEvent.legal_setFreq _ _ _)).takeSample .a
  case inr.inr.inr => exact (h.emitOne (OscEvent.legal_setPhase _ _)).takeSample .a

/-- `BinaryValue` keeps the invariant: it sends no `OscSetPhase` (R65, R206). -/
theorem binaryValue_inv {sy : Byte} (h : s.Inv) (hv : binaryValue sy s = .next r) : r.2.Inv := by
  obtain ⟨-, ⟨-, rfl⟩ | ⟨-, -, ⟨-, rfl⟩ | ⟨-, rfl⟩ | ⟨-, rfl⟩⟩⟩ := binaryValue_eq_next.1 hv
  case inl => exact h
  case inr.inl => exact h.takeSample .b
  case inr.inr.inl => exact (h.emitOne (OscEvent.legal_setFreq _ _ _)).takeSample .b
  case inr.inr.inr => exact h.takeSample .b

end

/-! ### All commands, and the step -/

/-- Every command that ends ok keeps the invariant (R40). -/
theorem exec_keeps_inv {i : Instr} {s t : State} (h : s.Inv) (he : exec i s = .next t) : t.Inv := by
  have hi := exec_eq_next.1 he
  cases i with
  | ainitAm a f k osc => obtain ⟨⟨-, -, hk⟩, rfl⟩ := hi; exact afterAinitAm_inv h hk
  | ainitFm a f k osc => obtain ⟨-, rfl⟩ := hi; exact afterAinitFm_inv h
  | ainitPm a f k osc => obtain ⟨-, rfl⟩ := hi; exact afterAinitPm_inv h
  | ainitU3 a f k osc => obtain ⟨-, rfl⟩ := hi; exact afterAinitU3_inv h
  | aval m => obtain ⟨r, hv, rfl⟩ := hi; exact (analogValue_inv h hv).finish _
  | asmp m => obtain ⟨r, hv, q, -, rfl⟩ := hi; exact (analogValue_inv h hv).finish _
  | binitAsk a f k osc => obtain ⟨-, rfl⟩ := hi; exact afterBinitAsk_inv h
  | binitFsk a f k osc => obtain ⟨-, rfl⟩ := hi; exact afterBinitFsk_inv h
  | binitPsk a f k osc => obtain ⟨⟨-, -, hk⟩, rfl⟩ := hi; exact afterBinitPsk_inv h hk
  | binitU3 a f k osc => obtain ⟨-, rfl⟩ := hi; exact afterBinitU3_inv h
  | bval sy => obtain ⟨r, hv, rfl⟩ := hi; exact (binaryValue_inv h hv).finish _
  | bsmp sy => obtain ⟨r, hv, q, -, rfl⟩ := hi; exact (binaryValue_inv h hv).finish _
  | sym b => subst hi; exact (h.setCursor _).finish _

/-- Settles O53: the three ways a step ends ok, each keeping the invariant. -/
theorem stepKeepsMachineInvariant : Obligations.StepKeepsMachineInvariant := by
  intro s t h hstep
  obtain ⟨-, rfl⟩ | ⟨rest, -, rfl⟩ | ⟨fr, rest, i, -, -, he⟩ := step_eq_next.1 hstep
  · exact h
  · exact (h.setInbox rest).hostReset
  · exact exec_keeps_inv (h.setInbox rest) he

end Sys2Proof.Machine
end

section
/-! SUPPORT. The decoder against R103's six conditions and R94's opcode map: the command code of a
frame, the frames that select a row, the case of R92, the decoder, and the refusal of reserved frames. -/

namespace Sys2Proof

/-! ### The command code of a frame -/

/-- Field `cmd` of R91: `W0[7:0]`. -/
def Frame.cmd (fr : Frame) : Byte := fr.w0.extractLsb' 0 8

@[simp] theorem makeFrame_cmd (arg8 : Byte) (osc : Bool) (cmd : Byte) (w1 w2 w3 : Word) :
    (makeFrame arg8 osc cmd w1 w2 w3).cmd = cmd := by
  rw [Frame.cmd, makeFrame_cmd_field arg8 osc cmd w1 w2 w3 0 8 (by decide),
    BitVec.extractLsb'_eq_self]

/-- The command code is its four fields side by side (R93). -/
theorem Frame.toNat_cmd (fr : Frame) :
    fr.cmd.toNat = 64 * fr.z.toNat + 16 * fr.unit.toNat + 4 * fr.op.toNat + fr.ty.toNat := by
  simp only [cmd, z, unit, op, ty, BitVec.extractLsb'_toNat, Nat.shiftRight_eq_div_pow]
  omega

/-- A frame whose reserved fields are 0 is put together from its other fields (R91). -/
theorem Frame.eq_makeFrame {fr : Frame} (h1 : fr.rsv1 = 0#8) (h0 : fr.rsv0 = 0#7) :
    fr = makeFrame fr.arg8 fr.osc fr.cmd fr.w1 fr.w2 fr.w3 := by
  -- Bit by bit: the bits outside the fields of `makeFrame` are those of `rsv1` and `rsv0`.
  have hw : fr.w0 = (makeFrame fr.arg8 fr.osc fr.cmd fr.w1 fr.w2 fr.w3).w0 := by
    apply BitVec.eq_of_getLsbD_eq
    intro i hi
    have hbit1 := congrArg (BitVec.getLsbD · (i - 24)) h1
    have hbit0 := congrArg (BitVec.getLsbD · (i - 9)) h0
    rw [makeFrame_w0_bit]
    simp only [rsv1, rsv0, arg8, osc, cmd, BitVec.getLsbD_extractLsb', BitVec.getLsbD_zero] at *
    grind
  cases fr
  simpa [makeFrame] using hw

/-! ### The opcode map -/

/-- Words that agree under a mask agree on every field the mask covers. -/
theorem extractLsb'_eq_of_masked_eq {v w mask : Word} (h : v &&& mask = w &&& mask) {start len : Nat}
    (hmask : mask.extractLsb' start len = BitVec.allOnes len) :
    v.extractLsb' start len = w.extractLsb' start len := by
  have hfield := congrArg (BitVec.extractLsb' start len) h
  rwa [BitVec.extractLsb'_and, BitVec.extractLsb'_and, hmask, BitVec.and_allOnes,
    BitVec.and_allOnes] at hfield

/-- Under the mask of the opcode map a control word is the bare code `cmd` exactly when the reserved
fields are 0 and the frame's command code is `cmd` (R94). -/
theorem Frame.masked_eq_iff {fr : Frame} {cmd : Byte} :
    fr.w0 &&& 0xFF00FEFF#32 = cmd.zeroExtend 32 ↔
      fr.rsv1 = 0#8 ∧ fr.rsv0 = 0#7 ∧ fr.cmd = cmd := by
  constructor
  · intro h
    have hbare := h.trans (makeFrame_masked 0#8 false cmd 0#32 0#32 0#32).symm
    exact ⟨(extractLsb'_eq_of_masked_eq hbare rfl).trans (makeFrame_rsv1 _ _ _ _ _ _),
      (extractLsb'_eq_of_masked_eq hbare rfl).trans (makeFrame_rsv0 _ _ _ _ _ _),
      (extractLsb'_eq_of_masked_eq hbare rfl).trans (makeFrame_cmd _ _ _ _ _ _)⟩
  · rintro ⟨h1, h0, rfl⟩
    conv_lhs => rw [eq_makeFrame h1 h0]
    exact makeFrame_masked _ _ _ _ _ _

/-- Every row of the opcode map has the one mask and, as its pattern, a bare command code (R94). -/
theorem opcodeTable_mask_pattern :
    ∀ row ∈ opcodeTable,
      row.mask = 0xFF00FEFF#32 ∧ row.pattern = (row.pattern.setWidth 8).zeroExtend 32 := by
  decide

/-- A frame selects a row exactly when its reserved fields are 0 and its command code is the row's
(R94). -/
theorem OpcodeRow.selects_iff {row : OpcodeRow} (hrow : row ∈ opcodeTable) {fr : Frame} :
    row.selects fr = true ↔
      fr.rsv1 = 0#8 ∧ fr.rsv0 = 0#7 ∧ fr.cmd = row.pattern.setWidth 8 := by
  obtain ⟨hmask, hpattern⟩ := opcodeTable_mask_pattern row hrow
  rw [selects, beq_iff_eq, hmask, hpattern, Frame.masked_eq_iff, ← hpattern]

/-- Every command's encoding is a well-formed frame that selects the row of its mnemonic (R94). -/
theorem Laws.OwnRow.all : ∀ i : Instr, Laws.OwnRow.Statement i
  | .ainitAm a f k osc => Laws.OwnRow.ainitAm a f k osc
  | .ainitFm a f k osc => Laws.OwnRow.ainitFm a f k osc
  | .ainitPm a f k osc => Laws.OwnRow.ainitPm a f k osc
  | .ainitU3 a f k osc => Laws.OwnRow.ainitU3 a f k osc
  | .aval m => Laws.OwnRow.aval m
  | .asmp m => Laws.OwnRow.asmp m
  | .binitAsk a f k osc => Laws.OwnRow.binitAsk a f k osc
  | .binitFsk a f k osc => Laws.OwnRow.binitFsk a f k osc
  | .binitPsk a f k osc => Laws.OwnRow.binitPsk a f k osc
  | .binitU3 a f k osc => Laws.OwnRow.binitU3 a f k osc
  | .bval sy => Laws.OwnRow.bval sy
  | .bsmp sy => Laws.OwnRow.bsmp sy
  | .sym b => Laws.OwnRow.sym b

/-! ### The case on unit, op and type -/

section
variable {unit op ty : Nat} {fr : Frame}

/-- The command decoded from `unit`, `op` and `ty` has the command code made of them (R93, R94). -/
theorem cmd_encode_of_decodeFields {i : Instr} (h : decodeFields unit op ty fr = .command i) :
    (encode i).cmd.toNat = 16 * unit + 4 * op + ty := by
  unfold decodeFields at h
  split at h <;> cases h <;> simp [encode]

/-- The codes that name no command: conditions 3 to 6 of R103. -/
theorem decodeFields_eq_reserved_iff (hunit : unit < 4) (hop : op < 4) (hty : ty < 4) :
    decodeFields unit op ty fr = .reservedCommand ↔
      unit = 3 ∨ op = 0 ∨ (unit = 2 ∧ op ≠ 2) ∨ ((op = 2 ∨ op = 3 ∨ unit = 2) ∧ ty ≠ 0) := by
  unfold decodeFields
  split
  case h_14 => grind -- no arm of R94's table matched, so below 4 only the reserved codes are left
  all_goals simp

end

/-! ### The decoder -/

/-- A frame with reserved fields 0 decodes by its command code (R92, R93). -/
@[simp] theorem decode_makeFrame (arg8 : Byte) (osc : Bool) (cmd : Byte) (w1 w2 w3 : Word) :
    decode (makeFrame arg8 osc cmd w1 w2 w3) =
      if cmd.extractLsb' 6 2 ≠ 0#2 then .reservedCommand
      else decodeFields (cmd.extractLsb' 4 2).toNat (cmd.extractLsb' 2 2).toNat
        (cmd.extractLsb' 0 2).toNat (makeFrame arg8 osc cmd w1 w2 w3) := by
  simp [decode]

section
variable {fr : Frame}

/-- When a frame decodes to a command (R92). -/
theorem decode_eq_command_iff {i : Instr} :
    decode fr = .command i ↔
      (fr.rsv1 = 0#8 ∧ fr.rsv0 = 0#7) ∧ fr.z = 0#2 ∧
        decodeFields fr.unit.toNat fr.op.toNat fr.ty.toNat fr = .command i := by
  unfold decode
  split_ifs with hrsv hz
  · exact iff_of_false nofun fun ⟨⟨h1, h0⟩, _⟩ => hrsv.elim (· h1) (· h0)
  · simp [hz]
  · obtain ⟨h1, h0⟩ : fr.rsv1 = 0#8 ∧ fr.rsv0 = 0#7 := by simpa using hrsv
    simp [h1, h0, of_not_not hz]

/-- When a frame decodes as reserved, by the decoder's own tests (R92). -/
theorem decode_eq_reserved_iff :
    decode fr = .reservedCommand ↔
      (fr.rsv1 ≠ 0#8 ∨ fr.rsv0 ≠ 0#7) ∨ fr.z ≠ 0#2 ∨
        decodeFields fr.unit.toNat fr.op.toNat fr.ty.toNat fr = .reservedCommand := by
  unfold decode
  split_ifs with hrsv hz
  · simp [hrsv]
  · simp [hz]
  · simp [hrsv, hz]

/-- The six conditions of R103. -/
theorem decode_eq_reserved_iff_conditions :
    decode fr = .reservedCommand ↔
      (fr.rsv1 ≠ 0#8 ∨ fr.rsv0 ≠ 0#7) ∨ fr.z ≠ 0#2 ∨ fr.unit = 3#2 ∨ fr.op = 0#2 ∨
        (fr.unit = 2#2 ∧ fr.op ≠ 2#2) ∨
        ((fr.op = 2#2 ∨ fr.op = 3#2 ∨ fr.unit = 2#2) ∧ fr.ty ≠ 0#2) := by
  rw [decode_eq_reserved_iff,
    decodeFields_eq_reserved_iff fr.unit.isLt fr.op.isLt fr.ty.isLt]
  simp only [← BitVec.toNat_inj, ne_eq, BitVec.toNat_ofNat, Nat.reducePow, Nat.reduceMod]

/-- A decoded frame has reserved fields 0 and the command code of its command (R92, R94). -/
theorem fields_of_decode {i : Instr} (h : decode fr = .command i) :
    fr.rsv1 = 0#8 ∧ fr.rsv0 = 0#7 ∧ fr.cmd = (encode i).cmd := by
  obtain ⟨⟨h1, h0⟩, hz, hi⟩ := decode_eq_command_iff.1 h
  refine ⟨h1, h0, BitVec.eq_of_toNat_eq ?_⟩
  rw [cmd_encode_of_decodeFields hi, fr.toNat_cmd, hz]
  simp

/-- A decoded frame selects the row of its command (R94). -/
theorem selects_of_decode {i : Instr} (h : decode fr = .command i) :
    ∃ row ∈ opcodeTable, row.mnemonic = i.mnemonic ∧ row.selects fr = true := by
  obtain ⟨h1, h0, hcmd⟩ := fields_of_decode h
  obtain ⟨-, row, hrow, hname, hsel⟩ := Laws.OwnRow.all i
  obtain ⟨-, -, hcode⟩ := (OpcodeRow.selects_iff hrow).1 hsel
  exact ⟨row, hrow, hname, (OpcodeRow.selects_iff hrow).2 ⟨h1, h0, hcmd.trans hcode⟩⟩

/-- A frame that selects a row decodes to a command with the row's mnemonic (R94). -/
theorem decode_of_selects {row : OpcodeRow} (hrow : row ∈ opcodeTable)
    (hsel : row.selects fr = true) : ∃ i, decode fr = .command i ∧ i.mnemonic = row.mnemonic := by
  obtain ⟨h1, h0, hcmd⟩ := (OpcodeRow.selects_iff hrow).1 hsel
  rw [Frame.eq_makeFrame h1 h0, hcmd]
  simp only [opcodeTable, List.mem_cons, List.not_mem_nil, or_false] at hrow
  rcases hrow with rfl | rfl | rfl | rfl | rfl | rfl | rfl | rfl | rfl | rfl | rfl | rfl | rfl <;>
    simp [decodeFields, Instr.mnemonic]

/-- A frame is reserved exactly when it decodes to no command (R92). -/
theorem decode_eq_reserved_iff_forall_ne :
    decode fr = .reservedCommand ↔ ∀ i, decode fr ≠ .command i := by
  cases decode fr <;> simp

end

/-- Settles O2: by the command code, which a row of the opcode map and the decoder's case both fix. -/
theorem decodeFollowsOpcodeMap : Obligations.DecodeFollowsOpcodeMap := by
  intro fr
  refine ⟨fun _ => selects_of_decode, fun _ => decode_of_selects, ?_⟩
  rw [decode_eq_reserved_iff_forall_ne]
  constructor
  · intro hnone row hrow
    by_contra hsel
    obtain ⟨i, hi, -⟩ := decode_of_selects hrow (eq_true_of_ne_false hsel)
    exact hnone i hi
  · intro hnone i hi
    obtain ⟨row, hrow, -, hsel⟩ := selects_of_decode hi
    exact Bool.false_ne_true ((hnone row hrow).symm.trans hsel)

/-- Settles O5: the control words of `BVAL` and `SYM` are put together from code and `arg8` alone. -/
theorem workedEncodingsDecode : Obligations.WorkedEncodingsDecode := by
  refine ⟨by decide, fun x y z => ?_, fun x y z => ?_⟩
  · have hframe : (⟨0x00010018#32, x, y, z⟩ : Frame) = makeFrame 1#8 false 0x18#8 x y z := rfl
    simp [hframe, decodeFields]
  · have hframe : (⟨0x00B20028#32, x, y, z⟩ : Frame) = makeFrame 0xB2#8 false 0x28#8 x y z := rfl
    simp [hframe, decodeFields]

end Sys2Proof

namespace Sys2Proof.Machine

/-! ### The refusal of reserved frames -/

/-- No command's own meaning refuses as reserved: that verdict is the decoder's (R103, R262). -/
theorem exec_ne_refused_reserved (i : Instr) (s : State) :
    exec i s ≠ .refused .reservedCommand := by
  intro h
  cases i with
  | ainitAm a f k osc => cases (analogInit_eq_refused.1 h).2
  | ainitFm a f k osc => cases (analogInit_eq_refused.1 h).2
  | ainitPm a f k osc => cases (analogInit_eq_refused.1 h).2
  | ainitU3 a f k osc => cases (analogInit_eq_refused.1 h).2
  | aval m => simp [exec, execAval, andThen_eq_refused, analogValue_eq_refused, returnVolts_eq] at h
  | asmp m =>
    simp [exec, execAsmp, andThen_eq_refused, analogValue_eq_refused, returnSample_eq_refused] at h
  | binitAsk a f k osc => cases (binaryInit_eq_refused.1 h).2
  | binitFsk a f k osc => cases (binaryInit_eq_refused.1 h).2
  | binitPsk a f k osc => cases (binaryInit_eq_refused.1 h).2
  | binitU3 a f k osc => cases (binaryInit_eq_refused.1 h).2
  | bval sy => simp [exec, execBval, andThen_eq_refused, binaryValue_eq_refused, returnVolts_eq] at h
  | bsmp sy =>
    simp [exec, execBsmp, andThen_eq_refused, binaryValue_eq_refused, returnSample_eq_refused] at h
  | sym b => cases h

/-- Why a step is refused (R103, R262): the pending frame is reserved, or the command it decodes to is
refused by its own rule. -/
theorem step_eq_refused {s : State} {x : Refusal} :
    step s = .refused x ↔
      ∃ fr rest, s.inbox = .command fr :: rest ∧
        ((decode fr = .reservedCommand ∧ x = .reservedCommand) ∨
          ∃ i, decode fr = .command i ∧ exec i (s.setInbox rest) = .refused x) := by
  unfold step
  split
  · rename_i h; simp [h]
  · rename_i rest h; simp [h]
  · rename_i fr rest h
    split
    · rename_i i hd; simp [h, hd]
    · rename_i hd; simp [h, hd, eq_comm (a := x)]

/-- Settles O3: only the decoder refuses as reserved, and its case leaves out just R103's codes. -/
theorem reservedFramesAreRefused : Obligations.ReservedFramesAreRefused := by
  intro s fr rest hinbox
  refine ⟨?_, decode_eq_reserved_iff_conditions⟩
  simp [step_eq_refused, hinbox, exec_ne_refused_reserved]

end Sys2Proof.Machine
end

section
/-! SUPPORT. The shared numerics (spec/40_shared_numerics.md): the quantiser of a `GetSample` after one
`GetValue` (R146, R148), the refusal of operands that are not finite (R138), and the laws of the clamps,
of `fmod1` and of the quantiser (R149). -/

namespace Sys2Proof.Machine

/-! ### The quantiser -/

section
variable {p : Params} {v : Word}

/-- The quantiser gives a sample exactly on a voltage that fits, and then its truncated quotient (R146). -/
theorem quantize_eq_some_iff_fitsSample {q : Int} :
    quantize p v = some q ↔ fitsSample p v ∧ q = ftrunc (fdiv v p.mvRes) := by
  simp only [quantize_eq_some, fitsSample, sampleMin, sampleMax, Nat.cast_pow, Nat.cast_ofNat]
  constructor
  · rintro ⟨hfin, rfl, hmin, hmax⟩; exact ⟨⟨hfin, hmin, hmax⟩, rfl⟩
  · rintro ⟨⟨hfin, hmin, hmax⟩, rfl⟩; exact ⟨hfin, rfl, hmin, hmax⟩

/-- The quantiser refuses exactly the voltages that do not fit (R146). -/
theorem quantize_eq_none_iff_not_fitsSample : quantize p v = none ↔ ¬ fitsSample p v := by
  simp [Option.eq_none_iff_forall_ne_some, quantize_eq_some_iff_fitsSample]

/-- Sign extension to 32 bits keeps a sample that fits `SAMPLE_BITS` bits (R100, R146). -/
theorem sampleWord_ftrunc_of_fitsSample (hbits : 0 < p.sampleBits) (h : fitsSample p v) :
    sampleWord p (ftrunc (fdiv v p.mvRes)) = sampleResult p v := by
  obtain ⟨-, hmin, hmax⟩ := h
  rw [sampleWord, BitVec.signExtend, BitVec.toInt_ofInt_eq_self hbits hmin (by omega), sampleResult]

/-- R146 reads two of the parameters only. -/
theorem quantize_congr {q : Params} (hres : p.mvRes = q.mvRes) (hbits : p.sampleBits = q.sampleBits) :
    quantize p v = quantize q v := by
  apply Option.ext
  simp only [quantize_eq_some_iff_fitsSample, fitsSample, hres, hbits, implies_true]

/-- R8 admits only positive widths of the channel sample. -/
theorem sampleBits_pos_of_valid (h : p.valid = true) : 0 < p.sampleBits := by
  simp only [Params.valid, Bool.and_eq_true, decide_eq_true_eq] at h
  obtain ⟨⟨-, hlow⟩, -⟩ := h
  omega

end

/-! ### `GetSample` against `GetValue` -/

/-- A `GetSample` whose voltage fits returns the quantised voltage (R100, R146). -/
theorem returnSample_of_fitsSample {r : Word × State} (hbits : 0 < r.2.params.sampleBits)
    (h : fitsSample r.2.params r.1) :
    returnSample r = .next (r.2.finish (some (sampleResult r.2.params r.1))) :=
  returnSample_eq_next.2 ⟨_, quantize_eq_some_iff_fitsSample.2 ⟨h, rfl⟩, by
    rw [sampleWord_ftrunc_of_fitsSample hbits h]⟩

/-- A `GetSample` whose voltage does not fit is refused (R146, R148). -/
theorem returnSample_of_not_fitsSample {r : Word × State} (h : ¬ fitsSample r.2.params r.1) :
    returnSample r = .refused .quantizerRange :=
  returnSample_eq_refused.2 ⟨quantize_eq_none_iff_not_fitsSample.2 h, rfl⟩

/-- `AnalogValue` writes neither the parameters nor the results (R43, R166). -/
theorem analogValue_frame {m : Word} {s : State} {r : Word × State}
    (hv : analogValue m s = .next r) : r.2.params = s.params ∧ r.2.results = s.results := by
  obtain ⟨-, ⟨-, rfl⟩ | ⟨-, -, ⟨-, rfl⟩ | ⟨-, rfl⟩ | ⟨-, rfl⟩⟩⟩ := analogValue_eq_next.1 hv <;>
    exact ⟨rfl, rfl⟩

/-- `BinaryValue` writes neither the parameters nor the results (R43, R206). -/
theorem binaryValue_frame {sy : Byte} {s : State} {r : Word × State}
    (hv : binaryValue sy s = .next r) : r.2.params = s.params ∧ r.2.results = s.results := by
  obtain ⟨-, ⟨-, rfl⟩ | ⟨-, -, ⟨-, rfl⟩ | ⟨-, rfl⟩ | ⟨-, rfl⟩⟩⟩ := binaryValue_eq_next.1 hv <;>
    exact ⟨rfl, rfl⟩

/-- Either unit's `GetSample` against its `GetValue` (R148): both follow the same value `o`, which
writes neither the parameters nor the results. -/
theorem getSample_quantizes_getValue {s : State} {o : Host.Outcome (Word × State) Fault Refusal}
    (hbits : 0 < s.params.sampleBits)
    (hframe : ∀ r, o = .next r → r.2.params = s.params ∧ r.2.results = s.results) :
    (∀ q, andThen o returnVolts = .fault q → andThen o returnSample = .fault q) ∧
    (∀ q, andThen o returnVolts = .refused q → andThen o returnSample = .refused q) ∧
    (∀ t x, andThen o returnVolts = .next t → t.results = s.results ++ [some x] →
      (fitsSample s.params x → andThen o returnSample =
        .next { t with results := s.results ++ [some (sampleResult s.params x)] }) ∧
      (¬ fitsSample s.params x → andThen o returnSample = .refused .quantizerRange)) := by
  cases o with
  | fault q => simp
  | refused q => simp
  | next r =>
    refine ⟨nofun, nofun, fun t x ht hx => ?_⟩
    obtain ⟨hparams, hresults⟩ := hframe r rfl
    obtain rfl : t = r.2.finish (some r.1) := next_eq_next.1 ht
    obtain rfl : r.1 = x := by simpa [hresults] using hx
    rw [← hparams] at hbits ⊢
    rw [andThen_next, ← hresults]
    exact ⟨returnSample_of_fitsSample hbits, returnSample_of_not_fitsSample⟩

/-- Settles O28: the two commands of a unit follow the same value and differ in their end only. -/
theorem getSampleQuantizesOneGetValue : Obligations.GetSampleQuantizesOneGetValue := by
  intro v smp s hvalid hpair
  have hbits := sampleBits_pos_of_valid hvalid
  obtain ⟨m, rfl, rfl⟩ | ⟨sy, rfl, rfl⟩ := hpair
  · exact getSample_quantizes_getValue hbits fun _ => analogValue_frame
  · exact getSample_quantizes_getValue hbits fun _ => binaryValue_frame

/-! ### Operands that are not finite -/

/-- `AVAL` is refused as its value is: its end refuses nothing (R166). -/
theorem exec_aval_eq_refused {m : Word} {s : State} {x : Refusal} :
    exec (.aval m) s = .refused x ↔ analogValue m s = .refused x := by
  simp [exec, execAval, andThen_eq_refused, returnVolts_eq]

/-- `ASMP` is refused as its value is, or by the quantiser (R171). -/
theorem exec_asmp_eq_refused {m : Word} {s : State} {x : Refusal} :
    exec (.asmp m) s = .refused x ↔
      analogValue m s = .refused x ∨
        ∃ r, analogValue m s = .next r ∧ quantize r.2.params r.1 = none ∧ x = .quantizerRange := by
  simp only [exec, execAsmp, andThen_eq_refused, returnSample_eq_refused]

/-- Settles O29: each INIT admits its operands first, and past the message's own test `AVAL` refuses
nothing and `ASMP` only what the quantiser does. -/
theorem nonFiniteOperandsAreRefused : Obligations.NonFiniteOperandsAreRefused := by
  constructor
  · intro i a f k osc s hi
    obtain rfl | rfl | rfl | rfl | rfl | rfl | rfl | rfl := hi
    · exact analogInit_eq_refused.trans (and_iff_left rfl)
    · exact analogInit_eq_refused.trans (and_iff_left rfl)
    · exact analogInit_eq_refused.trans (and_iff_left rfl)
    · exact analogInit_eq_refused.trans (and_iff_left rfl)
    · exact binaryInit_eq_refused.trans (and_iff_left rfl)
    · exact binaryInit_eq_refused.trans (and_iff_left rfl)
    · exact binaryInit_eq_refused.trans (and_iff_left rfl)
    · exact binaryInit_eq_refused.trans (and_iff_left rfl)
  · intro i m s hi
    obtain rfl | rfl := hi
    · simp [exec_aval_eq_refused, analogValue_eq_refused]
    · simp [exec_asmp_eq_refused, analogValue_eq_refused]

/-! ### Finite intervals -/

/-- The size of a FLOAT's exact value is its magnitude (R97). -/
theorem natAbs_key (x : Word) : (key x).natAbs = mag x := by
  unfold key; split <;> simp

/-- The finite FLOATs are those of a magnitude below the infinities' (R97). -/
theorem isfinite_iff_mag_lt (x : Word) : isfinite x = true ↔ mag x < magOf infBits := by
  rw [mag_eq_magOf, isfinite_eq, decide_eq_true_eq, expField]
  constructor
  · intro hfin
    have hbits : x.toNat % 2 ^ 31 ≤ infBits - 1 := by simp only [infBits]; omega
    exact (magOf_mono hbits).trans_lt (by decide)
  · intro hmag hexp
    have hbits : infBits ≤ x.toNat % 2 ^ 31 := by simp only [infBits]; omega
    exact hmag.not_ge (magOf_mono hbits)

/-- A number between two finite FLOATs is finite (R97, R131). -/
theorem isfinite_of_between {x lo hi : Word} (hx : isNaN x = false) (hlo : isfinite lo = true)
    (hhi : isfinite hi = true) (hlow : flt x lo = false) (hhigh : fgt x hi = false) :
    isfinite x = true := by
  have hnlo := isNaN_of_isfinite hlo
  have hnhi := isNaN_of_isfinite hhi
  rw [isfinite_iff_mag_lt, ← natAbs_key] at hlo
  rw [isfinite_iff_mag_lt, ← natAbs_key] at hhi
  have hkeyLow : key lo ≤ key x := by
    rw [← Bool.not_eq_true, flt_iff] at hlow
    exact not_lt.1 fun h => hlow ⟨hx, hnlo, h⟩
  have hkeyHigh : key x ≤ key hi := by
    rw [← Bool.not_eq_true, fgt_iff] at hhigh
    exact not_lt.1 fun h => hhigh ⟨hx, hnhi, h⟩
  rw [isfinite_iff_mag_lt, ← natAbs_key]
  omega

/-- A finite value clamped to an interval with a finite lower end is finite, also when the upper end is
an infinity: that end is stored only below a finite value (R139, R149). -/
theorem isfinite_clampRange {x lo hi : Word} (hx : isfinite x = true) (hlo : isfinite lo = true)
    (hhi : isNaN hi = false) (h : fgt lo hi = false) : isfinite (clampRange x lo hi) = true := by
  unfold clampRange
  split
  · exact hlo
  · split
    next hgt =>
      refine isfinite_of_between hhi hlo hx (by rwa [← fgt_eq_flt]) ?_
      rw [fgt_iff] at hgt
      obtain ⟨-, -, hlt⟩ := hgt
      rw [← Bool.not_eq_true, fgt_iff]
      omega
    · exact hx

/-- The depth is finite: it lies between the two finite FLOATs 0.0 and 1.0 (R149, R162). -/
theorem isfinite_fmod1_fabs {k : Word} (hk : isfinite k = true) : isfinite (fmod1 (fabs k)) = true := by
  have hone := flt_fmod1_fabs_fOne hk
  obtain ⟨hnan, -, hlt⟩ := (flt_iff _ _).1 hone
  refine isfinite_of_between hnan (by decide) (by decide) (flt_fmod1_fabs_fZero hk) (hi := fOne) ?_
  rw [← Bool.not_eq_true, fgt_iff]
  omega

/-! ### The laws together -/

/-- A request above the limit is replaced by it (R139). -/
theorem clampHi_of_gt {x hi : Word} (h : fgt x hi = true) : clampHi x hi = hi := by
  simp [clampHi, h]

/-- Settles O49: the laws of the two clamps, of the depth and of the quantiser, each its own lemma. -/
theorem sharedNumericLaws : Obligations.SharedNumericLaws := by
  refine ⟨fun x hi _ _ => fgt_clampHi x hi, fun x hi _ _ => ⟨clampHi_of_not_gt, clampHi_of_gt⟩,
    fun x hi _ _ => clampHi_of_not_gt (fgt_clampHi x hi), ?_, ?_, fun p q v => quantize_congr⟩
  · exact fun x lo hi hx hlo hhi h =>
      ⟨isfinite_clampRange hx hlo hhi h, flt_clampRange h, fgt_clampRange h⟩
  · exact fun k hk => ⟨isfinite_fmod1_fabs hk, flt_fmod1_fabs_fZero hk, flt_fmod1_fabs_fOne hk⟩

end Sys2Proof.Machine
end

section
/-! SUPPORT. The AnalogModulator (spec/41_analog_modulator.md): the state an `AINIT` leaves written out
(R161), the state after one carrier sample (R66), and the sample of a voltage of `+0.0` (R146, R170). -/

namespace Sys2Proof.Machine

/-! ### The INITs -/

/-- The clamps are conditionals on the limits of R140 and R141, and the event is that of R63. -/
theorem afterAinit_eq (ty : AnalogType) (newK a f : Word) (osc : Bool) (s : State) :
    afterAinit ty newK a f osc s = { s with
      am :=
        { cfg := true
          ty := ty
          a := if fgt a (fdiv s.params.vpp fTwo) then fdiv s.params.vpp fTwo else a
          f := if fgt f (fdiv s.params.fs fFour) then fdiv s.params.fs fFour else f
          k := newK
          oscBound := s.am.oscBound || osc }
      trace := s.trace ++ initEventsOf .a s a f osc
      results := s.results ++ [none] } := rfl

/-- Settles O11: the limit of `am.K` is taken from the frequency this `AINIT` stores. -/
theorem ainitFmConfigures : Obligations.AinitFmConfigures := by
  intro a f k osc s ha hf hk
  exact ⟨_, exec_eq_next.2 ⟨⟨ha, hf, hk⟩, (afterAinit_eq ..).symm⟩⟩

/-- Settles O12: the clamp by `PI_4` stores its bit pattern or the request. -/
theorem ainitPmConfigures : Obligations.AinitPmConfigures := by
  intro a f k osc s ha hf hk
  exact ⟨_, exec_eq_next.2 ⟨⟨ha, hf, hk⟩, (afterAinit_eq ..).symm⟩⟩

/-! ### One carrier sample -/

/-- Emitting no event changes nothing. -/
@[simp] theorem State.emit_nil (s : State) : s.emit [] = s := by
  simp [State.emit]

/-- Messages, then one `OscGet`, then the result: what a value command with a recognised type does
(R66, R71). -/
theorem afterSample_emit_takeSample (p : OscPort) (messages : List OscEvent) (r : Word) (s : State) :
    AfterSample p messages r s (((s.emit messages).takeSample p).finish (some r)) where
  registers := ⟨rfl, rfl, rfl, rfl, rfl⟩
  trace := by simp
  results := rfl

/-- Settles O18: type AM sends no message before its one `OscGet`. -/
theorem avalAmReturnsFormula : Obligations.AvalAmReturnsFormula := by
  intro m s hcfg hty hm hbound
  have hv : analogValue m s = .next (valueAm m s) :=
    analogValue_eq_next.2 ⟨hcfg, .inr ⟨hm, hbound, .inl ⟨hty, rfl⟩⟩⟩
  have hafter := afterSample_emit_takeSample .a [] (valueAm m s).1 s
  rw [State.emit_nil] at hafter
  exact ⟨_, exec_eq_next.2 ⟨_, hv, rfl⟩, hafter⟩

/-! ### The unrecognised type -/

/-- Clearing the sign keeps the magnitude (R131). -/
theorem mag_fabs (x : Word) : mag (fabs x) = mag x := by
  rw [fabs_eq_pack, mag_pack (Nat.mod_lt _ (by decide)), mag_eq_magOf]

/-- A positive finite pattern has a positive magnitude (R97). -/
theorem mag_pos_of_positiveFinite {w : Word} (h : Config.positiveFinite w = true) : 0 < mag w := by
  simp only [Config.positiveFinite, Bool.and_eq_true, decide_eq_true_eq] at h
  unfold mag
  split
  next hexp => rw [expField] at hexp; rw [fracField]; omega
  · positivity

section
variable {w : Word}

/-- A non-zero finite pattern is finite, whatever its sign (R97). -/
theorem isfinite_of_nonzeroFinite (h : Config.nonzeroFinite w = true) : isfinite w = true := by
  rw [isfinite_iff_mag_lt, ← mag_fabs, ← isfinite_iff_mag_lt]
  exact isfinite_of_positiveFinite h

/-- A non-zero finite pattern is not of magnitude 0, whatever its sign (R97). -/
theorem mag_pos_of_nonzeroFinite (h : Config.nonzeroFinite w = true) : 0 < mag w := by
  rw [← mag_fabs]
  exact mag_pos_of_positiveFinite h

/-- The exact quotient 0 rounds to 0 (R130). -/
theorem roundMag_zero (d : Nat) : roundMag 0 d = 0 := by
  simp [roundMag, roundTiesEven]

/-- `+0.0` divided by a non-zero finite FLOAT is a zero with the divisor's sign (R131). -/
theorem fdiv_fZero (h : Config.nonzeroFinite w = true) : fdiv fZero w = pack (signBit w) 0 := by
  have hfin := isfinite_of_nonzeroFinite h
  have hzero : mag fZero = 0 := by decide
  have hnan : isNaN fZero = false := by decide
  have hinf : isInf fZero = false := by decide
  have hsign : signBit fZero = false := by decide
  simp [fdiv_eq, ieeeDiv, isNaN_of_isfinite hfin, isInf_of_isfinite hfin,
    (mag_pos_of_nonzeroFinite h).ne', hzero, hnan, hinf, hsign, roundMag_zero]

end

section
variable {p : Params}

/-- R8 admits only non-zero finite values of `MV_RES`. -/
theorem nonzeroFinite_mvRes_of_valid (h : p.valid = true) : Config.nonzeroFinite p.mvRes = true := by
  simp only [Params.valid, Bool.and_eq_true] at h
  obtain ⟨⟨⟨⟨⟨-, hmv⟩, -⟩, -⟩, -⟩, -⟩ := h
  exact hmv

/-- A voltage of `+0.0` is the sample 0: the quotient is a zero of either sign (R146). -/
theorem quantize_fZero (h : p.valid = true) : quantize p fZero = some 0 := by
  have hquot := fdiv_fZero (nonzeroFinite_mvRes_of_valid h)
  have hfin : ∀ neg, isfinite (pack neg 0) = true := by decide
  have htrunc : ∀ neg, ftrunc (pack neg 0) = 0 := by decide
  rw [quantize_eq_some, hquot, htrunc]
  refine ⟨hfin _, rfl, ?_, ?_⟩
  · simp [sampleMin]
  · have := Nat.one_le_two_pow (n := p.sampleBits - 1)
    rw [sampleMax]; omega

/-- The sample 0 is the word 0 (R100). -/
@[simp] theorem sampleWord_zero (p : Params) : sampleWord p 0 = 0#32 := by
  simp [sampleWord, BitVec.signExtend]

end

/-- Settles O21: the value is `+0.0` and the state is untouched, so `AVAL` returns `+0.0` and `ASMP` its
quantised sample 0. -/
theorem unrecognisedAnalogTypeReturnsZero : Obligations.UnrecognisedAnalogTypeReturnsZero := by
  intro m s hvalid hcfg hty
  have hv : analogValue m s = .next (fZero, s) := analogValue_eq_next.2 ⟨hcfg, .inl ⟨hty, rfl⟩⟩
  constructor
  · exact exec_eq_next.2 ⟨_, hv, rfl⟩
  · exact exec_eq_next.2 ⟨_, hv, 0, quantize_fZero hvalid, by rw [sampleWord_zero]; rfl⟩

end Sys2Proof.Machine
end

section
/-! SUPPORT. The BinaryModulator (spec/42_binary_modulator.md): the state a `BINIT` leaves written out
(R201) and its value commands; and where the value commands of either unit stop (R207 to R209). -/

namespace Sys2Proof.Machine

/-! ### The unrecognised type -/

/-- Settles O26: the value is `+0.0` and the state is untouched, so `BVAL` returns `+0.0` and `BSMP` its
quantised sample 0. -/
theorem unrecognisedBinaryTypeReturnsZero : Obligations.UnrecognisedBinaryTypeReturnsZero := by
  intro sy s hvalid hcfg hty
  have hv : binaryValue sy s = .next (fZero, s) := binaryValue_eq_next.2 ⟨hcfg, .inl ⟨hty, rfl⟩⟩
  constructor
  · exact exec_eq_next.2 ⟨_, hv, rfl⟩
  · exact exec_eq_next.2 ⟨_, hv, 0, quantize_fZero hvalid, by rw [sampleWord_zero]; rfl⟩

/-! ### The INITs -/

/-- The clamps are conditionals on the limits of R140 and R141, and the event is that of R63. -/
theorem afterBinit_eq (ty : BinaryType) (newK newS a f : Word) (osc : Bool) (s : State) :
    afterBinit ty newK newS a f osc s = { s with
      bm :=
        { cfg := true
          ty := ty
          a := if fgt a (fdiv s.params.vpp fTwo) then fdiv s.params.vpp fTwo else a
          f := if fgt f (fdiv s.params.fs fFour) then fdiv s.params.fs fFour else f
          k := newK
          s := newS
          oscBound := s.bm.oscBound || osc
          ssc := s.bm.ssc
          msps := s.bm.msps }
      trace := s.trace ++ initEventsOf .b s a f osc
      results := s.results ++ [none] } := rfl

/-- Settles O15: the limit of `bm.K` is taken from the frequency this `BINIT` stores, and `bm.S` from
the `bm.K` it stores. -/
theorem binitFskConfigures : Obligations.BinitFskConfigures := by
  intro a f k osc s ha hf hk
  exact ⟨_, exec_eq_next.2 ⟨⟨ha, hf, hk⟩, (afterBinit_eq ..).symm⟩⟩

/-! ### The sign of PSK -/

/-- One `OscGet` with no message before it, then the result (R66, R71). -/
theorem afterSample_takeSample (p : OscPort) (r : Word) (s : State) :
    AfterSample p [] r s ((s.takeSample p).finish (some r)) := by
  simpa using afterSample_emit_takeSample p [] r s

/-- Settles O25: type PSK sends no message before its one `OscGet`, and `fneg` flips bit 31. -/
theorem bvalPskFlipsSign : Obligations.BvalPskFlipsSign := by
  intro sy s hcfg hty hsy hbound
  have hv : binaryValue sy s = .next (valuePsk sy s) :=
    binaryValue_eq_next.2 ⟨hcfg, .inr ⟨hsy, hbound, .inr (.inr ⟨hty, rfl⟩)⟩⟩
  rw [← fneg_eq]
  exact ⟨_, exec_eq_next.2 ⟨_, hv, rfl⟩, afterSample_takeSample .b (valuePsk sy s).1 s⟩

/-! ### Verdicts of the value commands -/

/-- The value commands of the AnalogModulator are `AVAL` and `ASMP`. -/
theorem isAnalogValue_iff {i : Instr} : isAnalogValue i = true ↔ ∃ m, i = .aval m ∨ i = .asmp m := by
  cases i <;> simp [isAnalogValue]

/-- The value commands of the BinaryModulator are `BVAL` and `BSMP`. -/
theorem isBinaryValue_iff {i : Instr} :
    isBinaryValue i = true ↔ ∃ sy, i = .bval sy ∨ i = .bsmp sy := by
  cases i <;> simp [isBinaryValue]

/-- `AVAL` and `ASMP` fault as their value does: neither end raises a fault (R166, R171). -/
theorem exec_analog_eq_fault {i : Instr} {m : Word} {s : State} {q : Fault}
    (hi : i = .aval m ∨ i = .asmp m) : exec i s = .fault q ↔ analogValue m s = .fault q := by
  obtain rfl | rfl := hi
  · simp [exec, execAval, andThen_eq_fault, returnVolts_eq]
  · simp [exec, execAsmp, andThen_eq_fault, returnSample_ne_fault]

/-- `BVAL` and `BSMP` fault as their value does: neither end raises a fault (R206, R215). -/
theorem exec_binary_eq_fault {i : Instr} {sy : Byte} {s : State} {q : Fault}
    (hi : i = .bval sy ∨ i = .bsmp sy) : exec i s = .fault q ↔ binaryValue sy s = .fault q := by
  obtain rfl | rfl := hi
  · simp [exec, execBval, andThen_eq_fault, returnVolts_eq]
  · simp [exec, execBsmp, andThen_eq_fault, returnSample_ne_fault]

/-- `BVAL` is refused as its value is: its end refuses nothing (R206). -/
theorem exec_bval_eq_refused {sy : Byte} {s : State} {x : Refusal} :
    exec (.bval sy) s = .refused x ↔ binaryValue sy s = .refused x := by
  simp [exec, execBval, andThen_eq_refused, returnVolts_eq]

/-- `BSMP` is refused as its value is, or by the quantiser (R215). -/
theorem exec_bsmp_eq_refused {sy : Byte} {s : State} {x : Refusal} :
    exec (.bsmp sy) s = .refused x ↔
      binaryValue sy s = .refused x ∨
        ∃ r, binaryValue sy s = .next r ∧ quantize r.2.params r.1 = none ∧ x = .quantizerRange := by
  simp only [exec, execBsmp, andThen_eq_refused, returnSample_eq_refused]

/-- Settles O30: the test of `cfg` comes first, whatever the operand. -/
theorem unconfiguredUnitsFault : Obligations.UnconfiguredUnitsFault := by
  constructor
  · intro i s hi hcfg
    obtain ⟨m, hi⟩ := isAnalogValue_iff.1 hi
    exact (exec_analog_eq_fault hi).2 (analogValue_eq_fault.2 (.inl ⟨hcfg, rfl⟩))
  · intro i s hi hcfg
    obtain ⟨sy, hi⟩ := isBinaryValue_iff.1 hi
    exact (exec_binary_eq_fault hi).2 (binaryValue_eq_fault.2 (.inl ⟨hcfg, rfl⟩))

/-- Settles O31: past the operand's admission the test of `osc_bound` faults. -/
theorem unboundOscillatorFaults : Obligations.UnboundOscillatorFaults := by
  constructor
  · intro m s hcfg hty hm hbound
    have hv := analogValue_eq_fault.2 (.inr ⟨⟨hcfg, hty, hm, hbound⟩, rfl⟩)
    exact ⟨(exec_analog_eq_fault (.inl rfl)).2 hv, (exec_analog_eq_fault (.inr rfl)).2 hv⟩
  · intro sy s hcfg hty hsy hbound
    have hv := binaryValue_eq_fault.2 (.inr ⟨⟨hcfg, hty, hsy, hbound⟩, rfl⟩)
    exact ⟨(exec_binary_eq_fault (.inl rfl)).2 hv, (exec_binary_eq_fault (.inr rfl)).2 hv⟩

/-- Settles O32: the symbol's admission comes before the test of `osc_bound`. -/
theorem outOfDomainSymbolsAreRefused : Obligations.OutOfDomainSymbolsAreRefused := by
  intro sy s hcfg hty hsy
  have hv := binaryValue_eq_refused.2 ⟨⟨hcfg, hty, hsy⟩, rfl⟩
  exact ⟨exec_bval_eq_refused.2 hv, exec_bsmp_eq_refused.2 (.inl hv)⟩

end Sys2Proof.Machine
end

section
/-! SUPPORT. The SymbolExtractor (spec/43_symbol_extractor.md): one `SYM` (R241), the `SYM`s of a list of
bytes (R242), and `SYM8` (R246). -/

namespace Sys2Proof.Machine

/-! ### One `SYM` -/

/-- What a `SYM` that reads position `n`, counted without end, returns of its byte (R241, R242). -/
def symResult (b : Byte) (n : Nat) : Option Word :=
  some (if b.getLsbD (n % 8) then 1#32 else 0#32)

/-- The zero extension of the bit at the cursor is the result of the cursor's position (R241). -/
theorem zeroExtend_cursorBit (b : Byte) (c : BitVec 3) :
    some (BitVec.zeroExtend 32 (BitVec.ofBool (cursorBit b c))) = symResult b c.toNat := by
  rw [symResult, Nat.mod_eq_of_lt c.isLt, cursorBit]
  cases b.getLsbD c.toNat <;> rfl

/-- `SYM` always ends ok: it writes the cursor and returns the result of the position read (R241). -/
theorem exec_sym (b : Byte) (s : State) :
    exec (.sym b) s =
      .next ((s.setCursor (s.sx.cursor + 1#3)).finish (symResult b s.sx.cursor.toNat)) :=
  exec_eq_next.2 (congrArg (s.setCursor _).finish (zeroExtend_cursorBit b s.sx.cursor).symm)

/-- The result of a position is what the shift and the mask of R241 give. -/
theorem symResult_toNat_cursor (b : Byte) (c : BitVec 3) :
    symResult b c.toNat = some (BitVec.ofNat 32 ((b.toNat >>> c.toNat) % 2)) := by
  have hbit : (b.getLsbD c.toNat).toNat = (b.toNat >>> c.toNat) % 2 := by
    rw [← BitVec.testBit_toNat, Nat.toNat_testBit, Nat.shiftRight_eq_div_pow]
  rw [symResult, Nat.mod_eq_of_lt c.isLt, ← hbit]
  cases b.getLsbD c.toNat <;> rfl

/-- The 3-bit increment is the increment modulo 8 (R38, R241). -/
theorem toNat_cursor_add_one (c : BitVec 3) : (c + 1#3).toNat = (c.toNat + 1) % 8 :=
  BitVec.toNat_add c 1#3

/-- Settles O34. -/
theorem symReturnsCursorBit : Obligations.SymReturnsCursorBit := by
  intro b s
  rw [exec_sym, symResult_toNat_cursor, ← toNat_cursor_add_one, BitVec.ofNat_toNat, BitVec.setWidth_eq]
  rfl

/-! ### `SYM`s in turn -/

/-- Settles O35, by induction on the bytes: the first `SYM` moves the cursor to the position the others
count from. -/
theorem symCursorCountsModuloEight : Obligations.SymCursorCountsModuloEight := by
  intro bs
  induction bs with
  | nil =>
    intro s
    exact ⟨s, rfl, (Nat.mod_eq_of_lt s.sx.cursor.isLt).symm, (List.append_nil _).symm⟩
  | cons b bs ih =>
    intro s
    obtain ⟨t, hrun, hcursor, hresults⟩ :=
      ih ((s.setCursor (s.sx.cursor + 1#3)).finish (symResult b s.sx.cursor.toNat))
    rw [State.finish_sx, State.setCursor_sx, toNat_cursor_add_one] at hcursor hresults
    refine ⟨t, andThen_eq_next.2 ⟨_, exec_sym b s, hrun⟩, ?_, ?_⟩
    · rw [hcursor, List.length_cons]
      omega
    · simp [hresults, symResult, List.zipIdx_succ, Nat.add_assoc, Nat.add_comm 1]

/-! ### `SYM8` -/

/-- `SYM8 b` is the `SYM`s of eight copies of `b` (R108). -/
theorem sym8_eq_map_sym (b : Byte) : sym8 b = (List.replicate 8 b).map .sym :=
  List.map_replicate.symm

/-- Settles O36: R242 for eight copies of one byte, which bring the cursor round to where it was. -/
theorem sym8ReturnsRotatedByte : Obligations.Sym8ReturnsRotatedByte := by
  intro b s
  obtain ⟨t, hrun, hcursor, hresults⟩ := symCursorCountsModuloEight (List.replicate 8 b) s
  rw [← sym8_eq_map_sym] at hrun
  rw [List.length_replicate, Nat.add_mod_right, Nat.mod_eq_of_lt s.sx.cursor.isLt] at hcursor
  exact ⟨t, hrun, congrArg SymbolUnit.mk (BitVec.eq_of_toNat_eq hcursor), hresults⟩

end Sys2Proof.Machine
end

section
/-! SUPPORT. The encoder against the decoder (spec/30_encoding.md R92, R94): the round trip, and what of a
decoded frame its command keeps. -/

namespace Sys2Proof.Machine

/-- Settles O1: by the command code of each command, which is all the decoder's case looks at, and the
operand fields, which it reads back as the encoder put them. -/
theorem decodeEncodeRoundTrip : Obligations.DecodeEncodeRoundTrip := by
  intro i
  cases i <;> simp [encode, decode_makeFrame, decodeFields]

section
variable {fr : Frame} {i : Instr}

/-- The encoding of a decoded command is its frame with the fields the command ignores set to 0 (R92,
R96, R107). -/
theorem encode_of_decode (h : decode fr = .command i) :
    encode i = makeFrame (if isBinaryValue i || isSym i then fr.arg8 else 0#8)
      (if isAinit i || isBinit i then fr.osc else false) fr.cmd
      (if isAinit i || isBinit i || isAnalogValue i then fr.w1 else 0#32)
      (if isAinit i || isBinit i then fr.w2 else 0#32)
      (if isAinit i || isBinit i then fr.w3 else 0#32) := by
  obtain ⟨-, -, hcmd⟩ := fields_of_decode h
  obtain ⟨-, -, hi⟩ := decode_eq_command_iff.1 h
  rw [hcmd]
  unfold decodeFields at hi
  split at hi <;> cases hi <;> simp [encode, isAinit, isBinit, isAnalogValue, isBinaryValue, isSym]

/-- The low byte of a control word is its command code (R91). -/
theorem getLsbD_w0_of_lt {n : Nat} (hn : n < 8) : fr.w0.getLsbD n = fr.cmd.getLsbD n := by
  simp [Frame.cmd, hn]

end

/-- Settles O4: each clause reads one field of the frame that `encode_of_decode` puts together. -/
theorem decodedFrameIsEncodingButForIgnoredFields :
    Obligations.DecodedFrameIsEncodingButForIgnoredFields := by
  intro fr i h
  obtain ⟨hrsv1, hrsv0, hcmd⟩ := fields_of_decode h
  refine ⟨fun n hn => ?_, ?_⟩
  · rw [getLsbD_w0_of_lt hn, getLsbD_w0_of_lt hn, hcmd]
  · simp only [encode_of_decode h, makeFrame_osc, makeFrame_arg8, makeFrame_rsv0, makeFrame_rsv1,
      makeFrame_w1, makeFrame_w2, makeFrame_w3, hrsv1, hrsv0, and_self]

end Sys2Proof.Machine
end

section
/-! SUPPORT. The step and the host's reset (spec/20_memory.md R61, spec/70_reset_and_hazards.md R300), and
the INITs and value commands one by one (spec/41_analog_modulator.md, spec/42_binary_modulator.md). -/

namespace Sys2Proof.Machine

/-! ### The step -/

/-- Settles O6: the step's case on the next move and on the decoder's answer. -/
theorem stepRunsDecodedCommand : Obligations.StepRunsDecodedCommand := by
  intro s fr rest i hinbox hdecode
  simp only [step, hinbox, hdecode, State.setInbox]

/-- Settles O7. -/
theorem stepHoldsStateWhileNothingIsPending : Obligations.StepHoldsStateWhileNothingIsPending :=
  fun _ hinbox => step_eq_next.2 (.inl ⟨hinbox, rfl⟩)

/-- Settles O8: the state after the host's reset, field by field. -/
theorem resetMoveClearsTheConfiguration : Obligations.ResetMoveClearsTheConfiguration := by
  intro s rest hinbox
  refine ⟨(s.setInbox rest).hostReset, step_eq_next.2 (.inr (.inl ⟨rest, hinbox, rfl⟩)), ?_⟩
  simp [AnalogUnit.reset, BinaryUnit.reset, SymbolUnit.reset]

/-- Settles O9. -/
theorem resetStateIsUnconfigured : Obligations.ResetStateIsUnconfigured :=
  ⟨rfl, rfl, rfl, rfl, rfl, rfl⟩

/-- A positive parameter of the implementation meets its constraint (R8). -/
theorem positiveFinite_legalPositive (w : Word) :
    Config.positiveFinite (Config.legalPositive w) = true := by
  unfold Config.legalPositive
  split
  · assumption
  · decide

/-- A non-zero parameter of the implementation meets its constraint (R8). -/
theorem nonzeroFinite_legalNonzero (w : Word) :
    Config.nonzeroFinite (Config.legalNonzero w) = true := by
  unfold Config.legalNonzero
  split
  · assumption
  · decide

/-- The parameters the machine is built with meet the constraints of R8, whatever the implementation
supplies. -/
theorem valid_params : Config.params.valid = true := by
  have hmod := Nat.mod_lt Config.freeSampleBits (show 0 < 31 by decide)
  simp only [Params.valid, Bool.and_eq_true, decide_eq_true_eq]
  simp only [Config.params, positiveFinite_legalPositive, nonzeroFinite_legalNonzero, true_and]
  omega

/-- Settles O54: nothing is configured or bound after reset and the trace is empty, so only the
parameters' constraints are left. -/
theorem resetMeetsMachineInvariant : Obligations.ResetMeetsMachineInvariant :=
  ⟨valid_params, nofun, nofun, nofun, nofun, nofun⟩

/-! ### The INITs -/

/-- Settles O10. -/
theorem ainitAmConfigures : Obligations.AinitAmConfigures := by
  intro a f k osc s ha hf hk
  exact exec_eq_next.2 ⟨⟨ha, hf, hk⟩, (afterAinit_eq ..).symm⟩

/-- Settles O13. -/
theorem ainitU3KeepsParameter : Obligations.AinitU3KeepsParameter := by
  intro a f k osc s ha hf hk
  exact exec_eq_next.2 ⟨⟨ha, hf, hk⟩, (afterAinit_eq ..).symm⟩

/-- Settles O14: the limit of `bm.K` is taken from the amplitude this `BINIT` stores. -/
theorem binitAskConfigures : Obligations.BinitAskConfigures := by
  intro a f k osc s ha hf hk
  exact exec_eq_next.2 ⟨⟨ha, hf, hk⟩, (afterBinit_eq ..).symm⟩

/-- Settles O16: the two-sided clamp is the chain of its two comparisons. -/
theorem binitPskConfigures : Obligations.BinitPskConfigures := by
  intro a f k osc s ha hf hk
  exact exec_eq_next.2 ⟨⟨ha, hf, hk⟩, (afterBinit_eq ..).symm⟩

/-- Settles O17. -/
theorem binitU3KeepsParameters : Obligations.BinitU3KeepsParameters := by
  intro a f k osc s ha hf hk
  exact exec_eq_next.2 ⟨⟨ha, hf, hk⟩, (afterBinit_eq ..).symm⟩

/-! ### The value of a recognised type -/

/-- What either unit's value command of a recognised type reaches before its end: the voltage `v`, the
messages sent and one sample taken on port `p` (R66, R166, R206). -/
def sampled (p : OscPort) (messages : List OscEvent) (v : Word) (s : State) : Word × State :=
  (v, (s.emit messages).takeSample p)

section
variable {s : State} {r : Word × State}

/-- How `AnalogValue` ends ok, the recognised types taken together (R166 to R170). -/
theorem analogValue_eq_next_sampled {m : Word} :
    analogValue m s = .next r ↔
      s.am.cfg = true ∧
        ((s.am.ty = .u3 ∧ r = (fZero, s)) ∨
          (s.am.ty ≠ .u3 ∧ isfinite m = true ∧ s.am.oscBound = true ∧
            r = sampled .a (analogMessages s.am m) (analogVolts s.am m (s.sample .a)) s)) := by
  rw [analogValue_eq_next]
  cases hty : s.am.ty <;>
    simp [sampled, analogMessages, analogVolts, valueAm, valueFm, valuePm, hty]

/-- How `BinaryValue` ends ok, the recognised types taken together (R206, R210 to R213). -/
theorem binaryValue_eq_next_sampled {sy : Byte} :
    binaryValue sy s = .next r ↔
      s.bm.cfg = true ∧
        ((s.bm.ty = .u3 ∧ r = (fZero, s)) ∨
          (s.bm.ty ≠ .u3 ∧ sy.toNat ≤ 1 ∧ s.bm.oscBound = true ∧
            r = sampled .b (binaryMessages s.bm sy) (binaryVolts s.bm sy (s.sample .b)) s)) := by
  rw [binaryValue_eq_next]
  cases hty : s.bm.ty <;>
    simp [sampled, binaryMessages, binaryVolts, valueAsk, valueFsk, valuePsk, hty]

end

/-! ### The value commands -/

section
variable {s : State} {m : Word}

/-- `AVAL` with a recognised type: its messages, one `OscGet` and the voltage (R166 to R169). -/
theorem exec_aval_of_recognised (hcfg : s.am.cfg = true) (hty : s.am.ty ≠ .u3)
    (hm : isfinite m = true) (hbound : s.am.oscBound = true) :
    ∃ t, exec (.aval m) s = .next t ∧
      AfterSample .a (analogMessages s.am m) (analogVolts s.am m (s.sample .a)) s t :=
  ⟨_, exec_eq_next.2 ⟨_, analogValue_eq_next_sampled.2 ⟨hcfg, .inr ⟨hty, hm, hbound, rfl⟩⟩, rfl⟩,
    afterSample_emit_takeSample ..⟩

end

/-- Settles O19: with type FM the message is `F + K*m` and the voltage the scaled sample. -/
theorem avalFmSendsFrequency : Obligations.AvalFmSendsFrequency := by
  intro m s hcfg hty hm hbound
  simpa [analogMessages, analogVolts, hty] using
    exec_aval_of_recognised hcfg (by simp [hty]) hm hbound

/-- Settles O20: with type PM the message is the offset `K*m` and the voltage the scaled sample. -/
theorem avalPmSendsPhase : Obligations.AvalPmSendsPhase := by
  intro m s hcfg hty hm hbound
  simpa [analogMessages, analogVolts, hty] using
    exec_aval_of_recognised hcfg (by simp [hty]) hm hbound

section
variable {s : State} {sy : Byte}

/-- `BVAL` with a recognised type: its messages, one `OscGet` and the voltage (R206, R211 to R213). -/
theorem exec_bval_of_recognised (hcfg : s.bm.cfg = true) (hty : s.bm.ty ≠ .u3)
    (hsy : sy.toNat ≤ 1) (hbound : s.bm.oscBound = true) :
    ∃ t, exec (.bval sy) s = .next t ∧
      AfterSample .b (binaryMessages s.bm sy) (binaryVolts s.bm sy (s.sample .b)) s t :=
  ⟨_, exec_eq_next.2 ⟨_, binaryValue_eq_next_sampled.2 ⟨hcfg, .inr ⟨hty, hsy, hbound, rfl⟩⟩, rfl⟩,
    afterSample_emit_takeSample ..⟩

end

/-- Settles O23: type ASK sends no message, and symbol 1 halves the product. -/
theorem bvalAskReturnsFixedRatio : Obligations.BvalAskReturnsFixedRatio := by
  intro sy s hcfg hty hsy hbound
  simpa [binaryMessages, binaryVolts, hty] using
    exec_bval_of_recognised hcfg (by simp [hty]) hsy hbound

/-- Settles O24: type FSK sends the symbol's frequency, and the voltage is the scaled sample. -/
theorem bvalFskSendsTone : Obligations.BvalFskSendsTone := by
  intro sy s hcfg hty hsy hbound
  simpa [binaryMessages, binaryVolts, hty] using
    exec_bval_of_recognised hcfg (by simp [hty]) hsy hbound

/-- A `GetSample` whose voltage fits ends ok with the events of its `GetValue` (R100, R146, R148). -/
theorem returnSample_sampled {p : OscPort} {messages : List OscEvent} {v : Word} {s : State}
    (hvalid : s.params.valid = true) (hfits : fitsSample s.params v) :
    ∃ t, returnSample (sampled p messages v s) = .next t ∧
      AfterSample p messages (sampleResult s.params v) s t :=
  ⟨_, returnSample_of_fitsSample (sampleBits_pos_of_valid hvalid) hfits,
    afterSample_emit_takeSample ..⟩

/-- Settles O22: the value reached is that of `AVAL`, and its quotient fits. -/
theorem asmpReturnsSample : Obligations.AsmpReturnsSample := by
  intro m s hvalid hcfg hty hm hbound hfits
  obtain ⟨t, ht, hafter⟩ := returnSample_sampled hvalid hfits
  exact ⟨t, andThen_eq_next.2
    ⟨_, analogValue_eq_next_sampled.2 ⟨hcfg, .inr ⟨hty, hm, hbound, rfl⟩⟩, ht⟩, hafter⟩

/-- Settles O27: the value reached is that of `BVAL`, and its quotient fits. -/
theorem bsmpReturnsSample : Obligations.BsmpReturnsSample := by
  intro sy s hvalid hcfg hty hsy hbound hfits
  obtain ⟨t, ht, hafter⟩ := returnSample_sampled hvalid hfits
  exact ⟨t, andThen_eq_next.2
    ⟨_, binaryValue_eq_next_sampled.2 ⟨hcfg, .inr ⟨hty, hsy, hbound, rfl⟩⟩, ht⟩, hafter⟩

end Sys2Proof.Machine
end

section
/-! SUPPORT. What every command does to the registers, the trace, the answers and the results
(spec/10_state.md, spec/20_memory.md), and which verdicts it raises (spec/60_exceptions.md R262). -/

namespace Sys2Proof.Machine

/-! ### Counting `OscGet`s -/

/-- The `OscGet`s of two lists of events add up. -/
@[simp] theorem countGets_append (p : OscPort) (es fs : List OscEvent) :
    countGets p (es ++ fs) = countGets p es + countGets p fs :=
  List.countP_append

/-- One `OscGet` counts on its own port. -/
@[simp] theorem countGets_get (p q : OscPort) (c : Word) :
    countGets p [.get q c] = if q = p then 1 else 0 := by
  by_cases h : q = p <;> simp [countGets, OscEvent.isGet, OscEvent.port, h]

/-- An INIT takes no sample (R63). -/
@[simp] theorem countGets_initEventsOf (p q : OscPort) (s : State) (a f : Word) (osc : Bool) :
    countGets p (initEventsOf q s a f osc) = 0 := by
  cases osc <;> rfl

/-- The messages of the AnalogModulator are no `OscGet` (R64, R65). -/
@[simp] theorem countGets_analogMessages (p : OscPort) (u : AnalogUnit) (m : Word) :
    countGets p (analogMessages u m) = 0 := by
  unfold analogMessages; split <;> rfl

/-- The messages of the BinaryModulator are no `OscGet` (R64). -/
@[simp] theorem countGets_binaryMessages (p : OscPort) (u : BinaryUnit) (sy : Byte) :
    countGets p (binaryMessages u sy) = 0 := by
  unfold binaryMessages; split <;> rfl

/-- Taking a sample uses up the answers of its one `OscGet` on either port (R66). -/
theorem State.takeSample_script (s : State) (p q : OscPort) :
    (s.takeSample p).script q = (s.script q).drop (countGets q [.get p (s.sample p)]) := by
  rw [countGets_get]
  split
  next h => rw [h, takeSample_script_self, List.drop_one]
  next h => rw [takeSample_script_other s (Ne.symm h), List.drop_zero]

/-! ### The frame of the value commands -/

/-- `t` is `s` after a value command of the recognised or of the unrecognised type: no register is
written, the events `es` are performed with one answer used up per `OscGet`, and a word is
returned. -/
structure Performed (es : List OscEvent) (s t : State) : Prop where
  registers : SameRegisters s t
  trace : t.trace = s.trace ++ es
  results : ∃ w, t.results = s.results ++ [some w]
  script : ∀ p, t.script p = (s.script p).drop (countGets p es)
  draws : t.draws = s.draws + countGets .a es + countGets .b es

/-- The unrecognised type performs nothing (R170, R210). -/
theorem performed_finish (s : State) (w : Word) : Performed [] s (s.finish (some w)) where
  registers := ⟨rfl, rfl, rfl, rfl, rfl⟩
  trace := (List.append_nil _).symm
  results := ⟨w, rfl⟩
  script p := State.finish_script s (some w) p
  draws := rfl

/-- A recognised type performs its messages and one `OscGet` (R66). -/
theorem performed_sampled {p : OscPort} {messages : List OscEvent} (v w : Word) (s : State)
    (hmessages : ∀ q, countGets q messages = 0) :
    Performed (messages ++ [.get p (s.sample p)]) s
      ((sampled p messages v s).2.finish (some w)) where
  registers := ⟨rfl, rfl, rfl, rfl, rfl⟩
  trace := by simp [sampled]
  results := ⟨w, rfl⟩
  script q := by
    rw [countGets_append, hmessages, Nat.zero_add, State.finish_script, sampled,
      State.takeSample_script, State.emit_sample, State.emit_script]
  draws := by cases p <;> simp [sampled, hmessages]

section
variable {i : Instr} {s t : State}

/-- What `AVAL` and `ASMP` do when they end ok (R42, R66, R148). -/
theorem performed_of_exec_analog {m : Word} (hi : i = .aval m ∨ i = .asmp m)
    (h : exec i s = .next t) : Performed (analogEvents s m) s t := by
  obtain ⟨r, w, hv, rfl⟩ : ∃ r w, analogValue m s = .next r ∧ t = r.2.finish (some w) := by
    obtain rfl | rfl := hi
    · obtain ⟨r, hv, ht⟩ := exec_eq_next.1 h; exact ⟨r, _, hv, ht⟩
    · obtain ⟨r, hv, q, -, ht⟩ := exec_eq_next.1 h; exact ⟨r, _, hv, ht⟩
  unfold analogEvents
  obtain ⟨-, ⟨hty, rfl⟩ | ⟨hty, -, -, rfl⟩⟩ := analogValue_eq_next_sampled.1 hv
  · rw [if_pos hty]; exact performed_finish s w
  · rw [if_neg hty]; exact performed_sampled _ w s fun q => countGets_analogMessages q s.am m

/-- What `BVAL` and `BSMP` do when they end ok (R42, R66, R148). -/
theorem performed_of_exec_binary {sy : Byte} (hi : i = .bval sy ∨ i = .bsmp sy)
    (h : exec i s = .next t) : Performed (binaryEvents s sy) s t := by
  obtain ⟨r, w, hv, rfl⟩ : ∃ r w, binaryValue sy s = .next r ∧ t = r.2.finish (some w) := by
    obtain rfl | rfl := hi
    · obtain ⟨r, hv, ht⟩ := exec_eq_next.1 h; exact ⟨r, _, hv, ht⟩
    · obtain ⟨r, hv, q, -, ht⟩ := exec_eq_next.1 h; exact ⟨r, _, hv, ht⟩
  unfold binaryEvents
  obtain ⟨-, ⟨hty, rfl⟩ | ⟨hty, -, -, rfl⟩⟩ := binaryValue_eq_next_sampled.1 hv
  · rw [if_pos hty]; exact performed_finish s w
  · rw [if_neg hty]; exact performed_sampled _ w s fun q => countGets_binaryMessages q s.bm sy

/-- Every value command that ends ok performs its events and no more (R42, R66, R148). -/
theorem performed_of_exec (hi : (isAnalogValue i || isBinaryValue i) = true)
    (h : exec i s = .next t) : Performed (commandEvents s i) s t := by
  obtain hi | hi := Bool.or_eq_true_iff.1 hi
  · obtain ⟨m, rfl | rfl⟩ := isAnalogValue_iff.1 hi
    · exact performed_of_exec_analog (.inl rfl) h
    · exact performed_of_exec_analog (.inr rfl) h
  · obtain ⟨sy, rfl | rfl⟩ := isBinaryValue_iff.1 hi
    · exact performed_of_exec_binary (.inl rfl) h
    · exact performed_of_exec_binary (.inr rfl) h

end

/-! ### The frames of all commands -/

/-- Settles O38: an INIT writes its unit, a value command no register, `SYM` the cursor. -/
theorem registersAreWrittenByTheirUnitOnly : Obligations.RegistersAreWrittenByTheirUnitOnly := by
  intro i s t h
  cases i with
  | ainitAm a f k osc | ainitFm a f k osc | ainitPm a f k osc | ainitU3 a f k osc =>
    obtain ⟨-, rfl⟩ := exec_eq_next.1 h
    exact ⟨nofun, fun _ => rfl, fun _ => rfl, rfl, rfl, rfl, rfl⟩
  | binitAsk a f k osc | binitFsk a f k osc | binitPsk a f k osc | binitU3 a f k osc =>
    obtain ⟨-, rfl⟩ := exec_eq_next.1 h
    exact ⟨fun _ => rfl, nofun, fun _ => rfl, rfl, rfl, rfl, rfl⟩
  | aval m | asmp m | bval sy | bsmp sy =>
    obtain ⟨ham, hbm, hsx, hparams, hinbox⟩ := (performed_of_exec rfl h).registers
    exact ⟨fun _ => ham, fun _ => hbm, fun _ => hsx, by rw [hbm], by rw [hbm], hparams, hinbox⟩
  | sym b =>
    obtain rfl := exec_eq_next.1 h
    exact ⟨fun _ => rfl, fun _ => rfl, nofun, rfl, rfl, rfl, rfl⟩

/-- Settles O39: an INIT sets `cfg` and adds its `osc` to `osc_bound`; the other commands keep the units'
registers. -/
theorem statusBitsRecordInits : Obligations.StatusBitsRecordInits := by
  intro i s t h
  cases i with
  | ainitAm a f k osc | ainitFm a f k osc | ainitPm a f k osc | ainitU3 a f k osc
  | binitAsk a f k osc | binitFsk a f k osc | binitPsk a f k osc | binitU3 a f k osc =>
    obtain ⟨-, rfl⟩ := exec_eq_next.1 h
    simp [afterAinit, afterBinit, isAinit, isBinit, bindsAnalog, bindsBinary]
  | aval m | asmp m | bval sy | bsmp sy | sym b =>
    obtain ⟨ham, hbm, -⟩ := registersAreWrittenByTheirUnitOnly _ s t h
    simp [ham rfl, hbm rfl, isAinit, isBinit, bindsAnalog, bindsBinary]

/-- Settles O40: the event of an INIT is part of the state it leaves. -/
theorem commandsEmitTheirEvents : Obligations.CommandsEmitTheirEvents := by
  intro i s t h
  cases i with
  | ainitAm a f k osc | ainitFm a f k osc | ainitPm a f k osc | ainitU3 a f k osc
  | binitAsk a f k osc | binitFsk a f k osc | binitPsk a f k osc | binitU3 a f k osc =>
    obtain ⟨-, rfl⟩ := exec_eq_next.1 h
    rfl
  | aval m | asmp m | bval sy | bsmp sy => exact (performed_of_exec rfl h).trace
  | sym b =>
    obtain rfl := exec_eq_next.1 h
    exact (List.append_nil _).symm

/-- Settles O41: only the value commands take samples. -/
theorem oscGetUsesUpOneAnswer : Obligations.OscGetUsesUpOneAnswer := by
  intro i s t h
  cases i with
  | ainitAm a f k osc | ainitFm a f k osc | ainitPm a f k osc | ainitU3 a f k osc
  | binitAsk a f k osc | binitFsk a f k osc | binitPsk a f k osc | binitU3 a f k osc =>
    obtain ⟨-, rfl⟩ := exec_eq_next.1 h
    simp [commandEvents, afterAinit, afterBinit]
  | aval m | asmp m | bval sy | bsmp sy =>
    have hp := performed_of_exec rfl h
    exact ⟨hp.script, hp.draws⟩
  | sym b =>
    obtain rfl := exec_eq_next.1 h
    simp [commandEvents, countGets]

/-- Settles O42: an INIT returns nothing, every other command a word. -/
theorem commandsReturnOneResult : Obligations.CommandsReturnOneResult := by
  intro i s t h
  cases i with
  | ainitAm a f k osc | ainitFm a f k osc | ainitPm a f k osc | ainitU3 a f k osc
  | binitAsk a f k osc | binitFsk a f k osc | binitPsk a f k osc | binitU3 a f k osc =>
    obtain ⟨-, rfl⟩ := exec_eq_next.1 h
    exact ⟨none, rfl, by simp [isAinit, isBinit]⟩
  | aval m | asmp m | bval sy | bsmp sy =>
    obtain ⟨w, hw⟩ := (performed_of_exec rfl h).results
    exact ⟨some w, hw, by simp [isAinit, isBinit]⟩
  | sym b =>
    obtain rfl := exec_eq_next.1 h
    exact ⟨_, rfl, by simp [isAinit, isBinit]⟩

/-! ### What the oscillators are told -/

/-- What later events tell an oscillator adds to what earlier ones told it (R73). -/
theorem oscTold_append (p : OscPort) (tr es : List OscEvent) :
    oscTold p (tr ++ es) =
      es.foldl (fun told e => if e.port = p then e.retell told else told) (oscTold p tr) :=
  List.foldl_append

/-- An INIT with an oscillator supplied restarts it at the stored values; without one it tells it
nothing (R63, R308). -/
theorem oscTold_initEventsOf (p q : OscPort) (tr : List OscEvent) (s : State) (a f : Word)
    (osc : Bool) :
    oscTold q (tr ++ initEventsOf p s a f osc) =
      if p = q ∧ osc = true then
        some ⟨sine, clampAmplitude s.params a, clampFrequency s.params f, fZero, fZero⟩
      else oscTold q tr := by
  rw [oscTold_append]
  by_cases hp : p = q <;> cases osc <;>
    simp [initEventsOf, OscEvent.port, OscEvent.retell, clampAmplitude, clampFrequency, hp]

/-- Settles O43: by the events of an INIT, whose values are those it stores. -/
theorem initRestartsOrKeepsTheOscillator : Obligations.InitRestartsOrKeepsTheOscillator := by
  intro i s t a f k osc h
  have htrace := commandsEmitTheirEvents i s t h
  constructor
  · intro hi
    obtain rfl | rfl | rfl | rfl := hi
    all_goals
      obtain ⟨-, rfl⟩ := exec_eq_next.1 h
      rw [htrace]
      simp [commandEvents, oscTold_initEventsOf, afterAinit]
  · intro hi
    obtain rfl | rfl | rfl | rfl := hi
    all_goals
      obtain ⟨-, rfl⟩ := exec_eq_next.1 h
      rw [htrace]
      simp [commandEvents, oscTold_initEventsOf, afterBinit]

/-- Settles O44: by the events of an analog value, type by type. -/
theorem analogSamplesRetuneOnlyByType : Obligations.AnalogSamplesRetuneOnlyByType := by
  intro i m s t hi h
  rw [(performed_of_exec_analog hi h).trace, oscTold_append, oscTold_append, analogEvents,
    analogMessages]
  cases s.am.ty <;> simp [OscEvent.port, OscEvent.retell]

/-! ### Verdicts -/

/-- Settles O33: an INIT admits its operands and no more; a value command is refused by its operand's
admission or by the quantiser; `SYM` always ends ok. -/
theorem verdictsComeFromTheirCommands : Obligations.VerdictsComeFromTheirCommands := by
  intro i s
  cases i with
  | ainitAm a f k osc | ainitFm a f k osc | ainitPm a f k osc | ainitU3 a f k osc =>
    exact ⟨fun _ h => absurd h analogInit_ne_fault,
      fun _ h => .inl ⟨(analogInit_eq_refused.1 h).2, .inl rfl⟩⟩
  | binitAsk a f k osc | binitFsk a f k osc | binitPsk a f k osc | binitU3 a f k osc =>
    exact ⟨fun _ h => absurd h binaryInit_ne_fault,
      fun _ h => .inl ⟨(binaryInit_eq_refused.1 h).2, .inr (.inl rfl)⟩⟩
  | aval m =>
    refine ⟨fun _ _ => .inl rfl, fun r h => .inl ⟨?_, .inr (.inr rfl)⟩⟩
    exact (analogValue_eq_refused.1 (exec_aval_eq_refused.1 h)).2
  | asmp m =>
    refine ⟨fun _ _ => .inl rfl, fun r h => ?_⟩
    obtain h | ⟨-, -, -, hr⟩ := exec_asmp_eq_refused.1 h
    · exact .inl ⟨(analogValue_eq_refused.1 h).2, .inr (.inr rfl)⟩
    · exact .inr (.inr ⟨hr, .inl ⟨m, rfl⟩⟩)
  | bval sy =>
    refine ⟨fun _ _ => .inr rfl, fun r h => .inr (.inl ⟨?_, rfl⟩)⟩
    exact (binaryValue_eq_refused.1 (exec_bval_eq_refused.1 h)).2
  | bsmp sy =>
    refine ⟨fun _ _ => .inr rfl, fun r h => .inr ?_⟩
    obtain h | ⟨-, -, -, hr⟩ := exec_bsmp_eq_refused.1 h
    · exact .inl ⟨(binaryValue_eq_refused.1 h).2, rfl⟩
    · exact .inr ⟨hr, .inr ⟨sy, rfl⟩⟩
  | sym b => exact ⟨nofun, nofun⟩

end Sys2Proof.Machine
end

section
/-! SUPPORT. What a command cannot read (spec/00_scope.md section 1, spec/10_state.md R33, R37): changes of
the state that the operations of a command do not see, and the changes of the statements. -/

namespace Sys2Proof.Machine

/-! ### Changes a command does not see -/

/-- A changed next outcome is the next outcome of the changed state. -/
@[simp] theorem mapNext_next (g : State → State) (s : State) :
    mapNext g (.next s) = .next (g s) := rfl

/-- A change of the state does not touch the admission of an INIT's operands (R138). -/
theorem admitInit_mapNext (g : State → State) (a f k : Word) (o : Host.Outcome State Fault Refusal) :
    admitInit a f k (mapNext g o) = mapNext g (admitInit a f k o) := by
  unfold admitInit; split <;> rfl

/-- A change `g` of fields that taking and returning a value on port `p` neither reads nor writes: it
keeps the parameters and the next answer and commutes with the operations. -/
structure Unseen (p : OscPort) (g : State → State) : Prop where
  params : ∀ s, (g s).params = s.params
  sample : ∀ s, (g s).sample p = s.sample p
  emit : ∀ s es, (g s).emit es = g (s.emit es)
  takeSample : ∀ s, (g s).takeSample p = g (s.takeSample p)
  finish : ∀ s r, (g s).finish r = g (s.finish r)

namespace Unseen

variable {p : OscPort} {g : State → State} {s : State}

/-- Neither end of a value command sees the change, once the value does not. -/
theorem value (hg : Unseen p g) {o o' : Host.Outcome (Word × State) Fault Refusal}
    (ho : o' = andThen o fun r => .next (r.1, g r.2)) :
    andThen o' returnVolts = mapNext g (andThen o returnVolts) ∧
      andThen o' returnSample = mapNext g (andThen o returnSample) := by
  subst ho
  cases o with
  | fault q => exact ⟨rfl, rfl⟩
  | refused q => exact ⟨rfl, rfl⟩
  | next r =>
    simp only [andThen_next]
    constructor
    · rw [returnVolts_eq, returnVolts_eq, mapNext_next, hg.finish]
    · simp only [returnSample, hg.params, hg.finish]
      split <;> rfl

/-- `AnalogValue` does not see a change that keeps `am.*` (R166). -/
theorem analogValue (hg : Unseen .a g) (ham : (g s).am = s.am) (m : Word) :
    analogValue m (g s) = andThen (analogValue m s) fun r => .next (r.1, g r.2) := by
  simp only [Machine.analogValue, requireConfigured, analogAdmit, admitFinite, requireOscillator,
    valueAm, valueFm, valuePm, ham, hg.sample, hg.emit, hg.takeSample]
  cases s.am.ty <;> dsimp only <;> split_ifs <;> rfl

/-- `BinaryValue` sees of `bm.*` neither `bm.K` nor the pacing counters (R33, R37, R206). -/
theorem binaryValue (hg : Unseen .b g)
    (hbm : ∃ k ssc msps, (g s).bm = { s.bm with k := k, ssc := ssc, msps := msps }) (sy : Byte) :
    binaryValue sy (g s) = andThen (binaryValue sy s) fun r => .next (r.1, g r.2) := by
  obtain ⟨k, ssc, msps, hbm⟩ := hbm
  simp only [Machine.binaryValue, requireConfigured, binaryAdmit, admitSymbol, requireOscillator,
    valueAsk, valueFsk, valuePsk, hbm, hg.sample, hg.emit, hg.takeSample]
  cases s.bm.ty <;> dsimp only <;> split_ifs <;> rfl

/-- The AnalogModulator's commands do not see a change that keeps `am.*` (R42). -/
theorem exec_analog {i : Instr} (hg : Unseen .a g) (ham : (g s).am = s.am)
    (hset : ∀ u, (g s).setAm u = g (s.setAm u)) (hi : (isAinit i || isAnalogValue i) = true) :
    exec i (g s) = mapNext g (exec i s) := by
  have hinit : ∀ ty newK a f k osc,
      analogInit ty newK a f k osc (g s) = mapNext g (analogInit ty newK a f k osc s) := by
    intro ty newK a f k osc
    simp only [analogInit, hg.params, ham, hset, hg.emit, hg.finish, ← admitInit_mapNext, mapNext_next]
  cases i with
  | ainitAm a f k osc => exact hinit ..
  | ainitFm a f k osc => rw [exec, execAinitFm, hg.params]; exact hinit ..
  | ainitPm a f k osc => rw [exec, execAinitPm, hg.params]; exact hinit ..
  | ainitU3 a f k osc => rw [exec, execAinitU3, ham]; exact hinit ..
  | aval m => exact (hg.value (hg.analogValue ham m)).1
  | asmp m => exact (hg.value (hg.analogValue ham m)).2
  | binitAsk | binitFsk | binitPsk | binitU3 | bval | bsmp | sym => cases hi

/-- The BinaryModulator's value commands see of `bm.*` neither `bm.K` nor the pacing counters (R33,
R37). -/
theorem exec_binaryValue {i : Instr} (hg : Unseen .b g)
    (hbm : ∃ k ssc msps, (g s).bm = { s.bm with k := k, ssc := ssc, msps := msps })
    (hi : isBinaryValue i = true) : exec i (g s) = mapNext g (exec i s) := by
  obtain ⟨sy, rfl | rfl⟩ := isBinaryValue_iff.1 hi
  · exact (hg.value (hg.binaryValue hbm sy)).1
  · exact (hg.value (hg.binaryValue hbm sy)).2

/-- The `BINIT`s see of `bm.*` only the two parameters they may keep and what the state they leave is
made of (R201). -/
theorem exec_binit {i : Instr} (hg : Unseen .b g) (hk : (g s).bm.k = s.bm.k)
    (hs : (g s).bm.s = s.bm.s)
    (hafter : ∀ ty newK newS a f osc,
      afterBinit ty newK newS a f osc (g s) = g (afterBinit ty newK newS a f osc s))
    (hi : isBinit i = true) : exec i (g s) = mapNext g (exec i s) := by
  have hinit : ∀ ty newK newS a f k osc,
      binaryInit ty newK newS a f k osc (g s) = mapNext g (binaryInit ty newK newS a f k osc s) := by
    intro ty newK newS a f k osc
    exact (congrArg (fun t => admitInit a f k (.next t)) (hafter ty newK newS a f osc)).trans
      (admitInit_mapNext g a f k (.next _))
  cases i with
  | binitAsk a f k osc => rw [exec, execBinitAsk, hg.params, hs]; exact hinit ..
  | binitFsk a f k osc => rw [exec, execBinitFsk, hg.params]; exact hinit ..
  | binitPsk a f k osc => rw [exec, execBinitPsk, hg.params, hs]; exact hinit ..
  | binitU3 a f k osc => rw [exec, execBinitU3, hk, hs]; exact hinit ..
  | ainitAm | ainitFm | ainitPm | ainitU3 | aval | asmp | bval | bsmp | sym => cases hi

end Unseen

/-! ### The changes of the statements -/

/-- Replaces what the AnalogModulator's commands may not see: the other units and port. -/
def replaceBinary (u : BinaryUnit) (x : SymbolUnit) (cs : List Word) (t : State) : State :=
  { t with bm := u, sx := x, oscB := cs }

/-- Replaces what the BinaryModulator's commands may not see: the other units and port. -/
def replaceAnalog (u : AnalogUnit) (x : SymbolUnit) (cs : List Word) (t : State) : State :=
  { t with am := u, sx := x, oscA := cs }

/-- Replaces `bm.K`. -/
def replaceK (x : Word) (t : State) : State :=
  { t with bm := { t.bm with k := x } }

/-- Replaces the pacing counters. -/
def replacePacing (x y : Nat) (t : State) : State :=
  { t with bm := { t.bm with ssc := x, msps := y } }

theorem unseen_replaceBinary (u : BinaryUnit) (x : SymbolUnit) (cs : List Word) :
    Unseen .a (replaceBinary u x cs) :=
  ⟨fun _ => rfl, fun _ => rfl, fun _ _ => rfl, fun _ => rfl, fun _ _ => rfl⟩

theorem unseen_replaceAnalog (u : AnalogUnit) (x : SymbolUnit) (cs : List Word) :
    Unseen .b (replaceAnalog u x cs) :=
  ⟨fun _ => rfl, fun _ => rfl, fun _ _ => rfl, fun _ => rfl, fun _ _ => rfl⟩

theorem unseen_replaceK (x : Word) : Unseen .b (replaceK x) :=
  ⟨fun _ => rfl, fun _ => rfl, fun _ _ => rfl, fun _ => rfl, fun _ _ => rfl⟩

theorem unseen_replacePacing (p : OscPort) (x y : Nat) : Unseen p (replacePacing x y) :=
  ⟨fun _ => rfl, fun _ => by cases p <;> rfl, fun _ _ => rfl, fun _ => by cases p <;> rfl,
    fun _ _ => rfl⟩

/-- Settles O45: the changes commute with every operation of the commands they are hidden from. -/
theorem unitsAreIndependent : Obligations.UnitsAreIndependent := by
  refine ⟨fun i s u x cs hi => ?_, fun i s u x cs hi => ?_, fun i s u v as bs hi => ?_⟩
  · exact (unseen_replaceBinary u x cs).exec_analog rfl (fun _ => rfl) (Bool.or_eq_true_iff.2 hi)
  · obtain hi | hi := hi
    · exact (unseen_replaceAnalog u x cs).exec_binit rfl rfl (fun _ _ _ _ _ _ => rfl) hi
    · exact (unseen_replaceAnalog u x cs).exec_binaryValue ⟨_, _, _, rfl⟩ hi
  · cases i with
    | sym b => rfl
    | _ => cases hi

/-- Settles O46. -/
theorem binaryValueCommandsDoNotReadK : Obligations.BinaryValueCommandsDoNotReadK :=
  fun _ _ x hi => (unseen_replaceK x).exec_binaryValue ⟨x, _, _, rfl⟩ hi

/-- Settles O47: a `BINIT` copies the counters, the other commands do not touch them. -/
theorem pacingCountersAreInert : Obligations.PacingCountersAreInert := by
  intro i s x y
  cases i with
  | ainitAm | ainitFm | ainitPm | ainitU3 | aval | asmp =>
    exact (unseen_replacePacing .a x y).exec_analog rfl (fun _ => rfl) rfl
  | binitAsk | binitFsk | binitPsk | binitU3 =>
    exact (unseen_replacePacing .b x y).exec_binit rfl rfl (fun _ _ _ _ _ _ => rfl) rfl
  | bval | bsmp => exact (unseen_replacePacing .b x y).exec_binaryValue ⟨_, x, y, rfl⟩ rfl
  | sym b => rfl

end Sys2Proof.Machine
end

section
/-! SUPPORT. The exact laws of the arithmetic (spec/40_shared_numerics.md R131): the depth of AM, scaling
by powers of two, and the bound of a keyed voltage. -/

namespace Sys2Proof.Machine

/-! ### Finite operands -/

section
variable {x y : Word}

/-- The magnitude bits of a finite FLOAT are below an infinity's (R97). -/
theorem bits_lt_infBits (hx : isfinite x = true) : x.toNat % 2 ^ 31 < infBits := by
  rw [isfinite_eq, decide_eq_true_eq, expField] at hx
  simp only [infBits]
  omega

/-- The product of finite FLOATs is the exact product, rounded (R131). -/
theorem fmul_of_isfinite (hx : isfinite x = true) (hy : isfinite y = true) :
    fmul x y = pack (signBit x != signBit y) (roundMag (mag x * mag y) (2 ^ 149)) := by
  simp [fmul_eq, ieeeMul, isNaN_of_isfinite, isInf_of_isfinite, hx, hy]

/-- The quotient of finite FLOATs, the divisor not a zero, is the exact quotient, rounded (R131). -/
theorem fdiv_of_isfinite (hx : isfinite x = true) (hy : isfinite y = true) (hzero : mag y ≠ 0) :
    fdiv x y = pack (signBit x != signBit y) (roundMag (mag x * 2 ^ 149) (mag y)) := by
  simp [fdiv_eq, ieeeDiv, isNaN_of_isfinite, isInf_of_isfinite, hx, hy, hzero]

/-- The exact value of a FLOAT that is not negative is its magnitude (R97). -/
theorem key_of_signBit (hx : signBit x = false) : key x = mag x := by
  simp [key, hx]

end

/-! ### The depth of AM -/

/-- A magnitude below 1.0 is its own fractional part, bit for bit (R131). -/
theorem fmod1_fabs_of_lt_one {k : Word} (hk : isfinite k = true) (hsign : signBit k = false)
    (hlt : mag k < 2 ^ 149) : fmod1 (fabs k) = k := by
  rw [mag_eq_magOf] at hlt
  rw [fmod1_fabs_eq_pack hk, Nat.mod_eq_of_lt hlt, roundMag_magOf (bits_lt_infBits hk), ← hsign,
    pack_self]

/-- Settles O50: the fractional part is exact, and that of a depth in [0, 1) is the depth. -/
theorem amDepthWrapsExactly : Obligations.AmDepthWrapsExactly := by
  refine ⟨fun k hk => key_fmod1_fabs hk, fun k hk hsign hlt => fmod1_fabs_of_lt_one hk hsign ?_⟩
  have hone : key fOne = 2 ^ 149 := by decide
  obtain ⟨-, -, hkey⟩ := (flt_iff _ _).1 hlt
  rw [hone, key_of_signBit hsign] at hkey
  exact_mod_cast hkey

/-! ### Powers of two -/

/-- The FLOAT `y` is a positive power of two, `2^e` of the least subnormals; 1.0 is `2^149` of them
(R97). -/
structure IsPowTwo (y : Word) (e : Nat) : Prop where
  finite : isfinite y = true
  sign : signBit y = false
  mag : mag y = 2 ^ e

theorem isPowTwo_fEighth : IsPowTwo fEighth 146 := ⟨by decide, by decide, by decide⟩
theorem isPowTwo_fHalf : IsPowTwo fHalf 148 := ⟨by decide, by decide, by decide⟩
theorem isPowTwo_fTwo : IsPowTwo fTwo 150 := ⟨by decide, by decide, by decide⟩
theorem isPowTwo_fFour : IsPowTwo fFour 151 := ⟨by decide, by decide, by decide⟩
theorem isPowTwo_fEight : IsPowTwo fEight 152 := ⟨by decide, by decide, by decide⟩

section
variable {x y z : Word} {j : Nat}

/-- The quotient by `2^j` is the exact quotient, rounded (R131). -/
theorem fdiv_powTwo (hx : isfinite x = true) (hy : IsPowTwo y (149 + j)) :
    fdiv x y = pack (signBit x) (roundMag (mag x) (2 ^ j)) := by
  rw [fdiv_of_isfinite hx hy.finite (by rw [hy.mag]; positivity), hy.sign, hy.mag, Bool.bne_false,
    Nat.mul_comm, pow_add, roundMag_scale (by positivity)]

/-- The product with `2^-j` is the exact quotient by `2^j`, rounded (R131). -/
theorem fmul_powTwo (hx : isfinite x = true) (hj : j ≤ 149) (hy : IsPowTwo y (149 - j)) :
    fmul y x = pack (signBit x) (roundMag (mag x) (2 ^ j)) := by
  rw [fmul_of_isfinite hy.finite hx, hy.sign, hy.mag, Bool.false_bne, ← pow_sub_mul_pow 2 hj,
    roundMag_scale (by positivity)]

/-- A FLOAT whose exponent is above `j` is exactly divisible by `2^j`: its exponent field goes down by
`j` (R97). -/
theorem magOf_roundMag_powTwo (hx : isfinite x = true) (hj : j + 1 ≤ expField x) :
    magOf (roundMag (mag x) (2 ^ j)) * 2 ^ j = mag x := by
  have hexp : expField x ≤ 254 := by
    have hlt : expField x < 256 := Nat.mod_lt _ (by decide)
    rw [isfinite_eq, decide_eq_true_eq] at hx
    omega
  have hfrac : 2 ^ 23 + fracField x < 2 ^ 24 := by
    have hlt : fracField x < 2 ^ 23 := Nat.mod_lt _ (by decide)
    omega
  have hmag : mag x = 2 ^ j * ((2 ^ 23 + fracField x) * 2 ^ (expField x - 1 - j)) := by
    rw [mag, if_neg (by omega), ← Nat.sub_add_cancel (show j ≤ expField x - 1 by omega), pow_add,
      Nat.add_sub_cancel]
    ring
  have hrange : (2 ^ 23 + fracField x) * 2 ^ (expField x - 1 - j) < 2 ^ 277 :=
    calc (2 ^ 23 + fracField x) * 2 ^ (expField x - 1 - j)
        < 2 ^ 24 * 2 ^ 253 := Nat.mul_lt_mul_of_lt_of_le hfrac
          (Nat.pow_le_pow_right (by decide) (by omega)) (by positivity)
      _ = 2 ^ 277 := by rw [← pow_add]
  have hround := roundMag_scale (Nat.two_pow_pos j)
    ((2 ^ 23 + fracField x) * 2 ^ (expField x - 1 - j)) 1
  rw [Nat.mul_one] at hround
  rw [hmag, hround, magOf_roundMag hfrac hrange, Nat.mul_comm]

/-- Division by `2^j` is exact above the exponents it would take below the normal ones (R131). -/
theorem key_fdiv_powTwo (hx : isfinite x = true) (hy : IsPowTwo y (149 + j))
    (hj : j + 1 ≤ expField x) : key (fdiv x y) * 2 ^ j = key x := by
  have hmag : (magOf (roundMag (mag x) (2 ^ j)) : Int) * 2 ^ j = mag x := by
    exact_mod_cast magOf_roundMag_powTwo hx hj
  rw [fdiv_powTwo hx hy, key_pack (roundMag_lt _ _), key]
  split
  · rw [Int.neg_mul, hmag]
  · exact hmag

end

/-- Settles O51: both sides round one exact quotient by a power of two, which is exact where the exponent
leaves room for it. -/
theorem powerOfTwoScalingIsExact : Obligations.PowerOfTwoScalingIsExact := by
  refine ⟨fun f hf => ?_, fun x hx hexp => ⟨?_, ?_⟩, fun x hx hexp => ?_⟩
  · rw [fdiv_powTwo (j := 3) hf isPowTwo_fEight, fmul_powTwo (j := 3) hf (by decide) isPowTwo_fEighth]
  · exact key_fdiv_powTwo (j := 1) hx isPowTwo_fTwo hexp
  · rw [fdiv_powTwo (j := 1) hx isPowTwo_fTwo, fmul_powTwo (j := 1) hx (by decide) isPowTwo_fHalf]
  · exact key_fdiv_powTwo (j := 2) hx isPowTwo_fFour hexp

/-! ### The bound of a keyed voltage -/

section
variable {c v x : Word}

/-- Flipping the sign keeps the magnitude (R131). -/
theorem mag_fneg (x : Word) : mag (fneg x) = mag x := by
  rw [mag_eq_magOf, mag_eq_magOf x, fneg_eq, BitVec.toNat_xor, Nat.xor_mod_two_pow]
  simp

/-- Scaling by a factor of at most 1.0 does not enlarge a finite FLOAT, rounding included (R131). -/
theorem mag_fmul_le (hc : isfinite c = true) (hunit : mag c ≤ 2 ^ 149) (hx : isfinite x = true) :
    mag (fmul c x) ≤ mag x := by
  rw [fmul_of_isfinite hc hx, mag_pack (roundMag_lt _ _), mag_eq_magOf x]
  refine magOf_mono (roundMag_le_of_le (by positivity) (bits_lt_infBits hx) ?_)
  rw [Nat.mul_comm]
  exact Nat.mul_le_mul_left _ hunit

/-- What is no larger than a finite FLOAT is finite (R97). -/
theorem isfinite_of_mag_le (h : mag v ≤ mag x) (hx : isfinite x = true) : isfinite v = true :=
  (isfinite_iff_mag_lt v).2 (h.trans_lt ((isfinite_iff_mag_lt x).1 hx))

/-- Comparing `fabs` compares magnitudes (R131). -/
theorem fgt_fabs_of_mag_le (h : mag v ≤ mag x) : fgt (fabs v) (fabs x) = false := by
  have hkey : ∀ w, key (fabs w) = mag w := fun w => by
    rw [key_of_signBit (by rw [fabs_eq_pack, signBit_pack (Nat.mod_lt _ (by decide))]), mag_fabs]
  rw [← Bool.not_eq_true, fgt_iff, hkey, hkey]
  omega

/-- A unit sample is at most 1.0 in magnitude (R67). -/
theorem mag_le_of_unitSample (h : UnitSample c) : mag c ≤ 2 ^ 149 := by
  have hone : key fOne = 2 ^ 149 := by decide
  have hneg : key (fneg fOne) = -2 ^ 149 := by decide
  obtain ⟨hfin, hlow, hhigh⟩ := h
  have hnan := isNaN_of_isfinite hfin
  have hge : ¬ key c < key (fneg fOne) := fun hlt => by
    rw [(flt_iff _ _).2 ⟨hnan, by decide, hlt⟩] at hlow
    cases hlow
  have hle : ¬ key fOne < key c := fun hlt => by
    rw [(fgt_iff _ _).2 ⟨hnan, by decide, hlt⟩] at hhigh
    cases hhigh
  rw [← natAbs_key]
  omega

/-- A unit sample keeps the voltage of every type and symbol within the amplitude (R211 to R213, R215). -/
theorem mag_binaryVolts_le {u : BinaryUnit} (hc : UnitSample c) (ha : isfinite u.a = true)
    (sy : Byte) : mag (binaryVolts u sy c) ≤ mag u.a := by
  have hprod : mag (fmul c u.a) ≤ mag u.a := mag_fmul_le hc.1 (mag_le_of_unitSample hc) ha
  unfold binaryVolts
  split
  next =>
    split
    · exact hprod
    · exact (mag_fmul_le (by decide) (by decide) (isfinite_of_mag_le hprod ha)).trans hprod
  next => exact hprod
  next =>
    split
    · exact hprod
    · rwa [mag_fneg]
  next => exact Nat.zero_le _

end

/-- What a `BVAL` that ended ok returns (R206): the voltage of the stored type, that of the unrecognised
type being `+0.0`. -/
theorem results_of_exec_bval {sy : Byte} {s t : State} (h : exec (.bval sy) s = .next t) :
    t.results = s.results ++ [some (binaryVolts s.bm sy (s.sample .b))] := by
  obtain ⟨r, hv, rfl⟩ := exec_eq_next.1 h
  obtain ⟨-, ⟨hty, rfl⟩ | ⟨-, -, -, rfl⟩⟩ := binaryValue_eq_next_sampled.1 hv
  · simp [binaryVolts, hty]
  · rfl

/-- Settles O52: the voltage is no larger in magnitude than the finite amplitude. -/
theorem unitSampleBoundsKeyedVoltage : Obligations.UnitSampleBoundsKeyedVoltage := by
  intro sy s t h hunit ha
  have hle := mag_binaryVolts_le hunit ha sy
  exact ⟨_, results_of_exec_bval h, isfinite_of_mag_le hle ha, fgt_fabs_of_mag_le hle⟩

end Sys2Proof.Machine
end

section
/-! SUPPORT. Commands in turn: `SYM8` as a byte (spec/43_symbol_extractor.md section 2), two equal value
commands at a held phase (spec/20_memory.md R67), and the bring-up of a unit
(spec/70_reset_and_hazards.md R323). -/

namespace Sys2Proof.Machine

/-! ### The byte `SYM8` takes apart -/

/-- A byte is the sum of its bits' weights. -/
theorem toNat_eq_sum_bits (b : Byte) :
    b.toNat = ((List.range 8).map fun j => (if b.getLsbD j then 1 else 0) * 2 ^ j).sum := by
  have hbit : ∀ j, (if b.getLsbD j then 1 else 0) = b.toNat / 2 ^ j % 2 := fun j => by
    rw [← BitVec.testBit_toNat, ← Nat.toNat_testBit, Bool.toNat, Bool.cond_eq_ite]
  have hlt := b.isLt
  simp only [hbit, List.range_succ, List.range_zero, List.map_append, List.map_cons, List.map_nil,
    List.sum_append, List.sum_cons, List.sum_nil]
  omega

/-- The entries of a list given by position, each with its position. -/
theorem zipIdx_map_range {α : Type} (f : Nat → α) (n : Nat) :
    ((List.range n).map f).zipIdx = (List.range n).map fun j => (f j, j) := by
  apply List.ext_getElem <;> simp

/-- Settles O37: from cursor 0 the rotation is the byte itself, bit 0 first. -/
theorem sym8ResultsRebuildByte : Obligations.Sym8ResultsRebuildByte := by
  intro b s hcursor
  obtain ⟨t, hrun, -, hresults⟩ := sym8ReturnsRotatedByte b s
  refine ⟨t, (List.range 8).map fun j => if b.getLsbD j then 1#32 else 0#32, hrun, by simp, ?_, ?_⟩
  · rw [hresults, hcursor]
    rfl
  · have hword : ∀ c : Bool, (if c then 1#32 else 0#32).toNat = if c then 1 else 0 := by decide
    simp only [zipIdx_map_range, List.map_map, Function.comp_def, hword]
    exact toNat_eq_sum_bits b

/-! ### Equal commands at a held phase -/

section
variable {s t : State}

/-- What an `AVAL` of a recognised type did when it ended ok (R166 to R169). -/
theorem afterSample_of_exec_aval {m : Word} (hty : s.am.ty ≠ .u3) (h : exec (.aval m) s = .next t) :
    AfterSample .a (analogMessages s.am m) (analogVolts s.am m (s.sample .a)) s t := by
  obtain ⟨r, hv, rfl⟩ := exec_eq_next.1 h
  obtain ⟨-, ⟨hu3, -⟩ | ⟨-, -, -, rfl⟩⟩ := analogValue_eq_next_sampled.1 hv
  · exact absurd hu3 hty
  · exact afterSample_emit_takeSample ..

/-- What a `BVAL` of a recognised type did when it ended ok (R206, R211 to R213). -/
theorem afterSample_of_exec_bval {sy : Byte} (hty : s.bm.ty ≠ .u3)
    (h : exec (.bval sy) s = .next t) :
    AfterSample .b (binaryMessages s.bm sy) (binaryVolts s.bm sy (s.sample .b)) s t := by
  obtain ⟨r, hv, rfl⟩ := exec_eq_next.1 h
  obtain ⟨-, ⟨hu3, -⟩ | ⟨-, -, -, rfl⟩⟩ := binaryValue_eq_next_sampled.1 hv
  · exact absurd hu3 hty
  · exact afterSample_emit_takeSample ..

/-- Two commands one after the other (R61). -/
theorem execAll_pair_eq_next {i j : Instr} :
    execAll [i, j] s = .next t ↔ ∃ u, exec i s = .next u ∧ exec j u = .next t := by
  simp [execAll, andThen_eq_next]

/-- At a held phase two samples in turn are the held answer, and the results are the two voltages
(R67). -/
theorem samples_of_heldPhase {p : OscPort} {messages messages' : List OscEvent} {v v' c : Word}
    {u : State} (h : AfterSample p messages v s u) (h' : AfterSample p messages' v' u t)
    (hheld : HeldPhase p c (t.trace.drop s.trace.length)) :
    s.sample p = c ∧ u.sample p = c ∧ t.results = s.results ++ [some v, some v'] := by
  refine ⟨hheld _ ?_, hheld _ ?_, ?_⟩
  · simp [h.trace, h'.trace]
  · simp [h.trace, h'.trace]
  · simp [h.results, h'.results]

end

/-- Settles O48: the second command finds the registers of the first and is given the same answer. -/
theorem heldPhaseRepeatsTheResult : Obligations.HeldPhaseRepeatsTheResult := by
  constructor
  · intro m c s t hty hrun hheld
    obtain ⟨u, h, h'⟩ := execAll_pair_eq_next.1 hrun
    have hs := afterSample_of_exec_aval (by simp [hty]) h
    have hu := afterSample_of_exec_aval (by simp [hs.registers.am, hty]) h'
    obtain ⟨hc, hc', hresults⟩ := samples_of_heldPhase hs hu hheld
    exact ⟨_, by rw [hresults, hs.registers.am, hc, hc']⟩
  · intro sy c s t hty hrun hheld
    have hu3 : s.bm.ty ≠ .u3 := by obtain h | h := hty <;> simp [h]
    obtain ⟨u, h, h'⟩ := execAll_pair_eq_next.1 hrun
    have hs := afterSample_of_exec_bval hu3 h
    have hu := afterSample_of_exec_bval (hs.registers.bm ▸ hu3) h'
    obtain ⟨hc, hc', hresults⟩ := samples_of_heldPhase hs hu hheld
    exact ⟨_, by rw [hresults, hs.registers.bm, hc, hc']⟩

/-! ### The bring-up of a unit -/

section
variable {i : Instr} {s t : State} {rest : List HostMove}

/-- A reset and a command that ends ok from the reset state are a good run of two steps (R272, R300). -/
theorem goodRun_reset_command (hinbox : s.inbox = .reset :: .command (encode i) :: rest)
    (h : exec i (s.setInbox rest).hostReset = .next t) : GoodRun 2 s t := by
  have hreset : step s = .next (s.setInbox (.command (encode i) :: rest)).hostReset :=
    step_eq_next.2 (.inr (.inl ⟨_, hinbox, rfl⟩))
  have hcommand : step (s.setInbox (.command (encode i) :: rest)).hostReset = .next t :=
    step_eq_next.2 (.inr (.inr ⟨_, _, i, rfl, decodeEncodeRoundTrip i, h⟩))
  simp [GoodRun, Host.Core.run, core, hreset, hcommand]

/-- After the host's reset, and with the trace before it left out, the machine's invariant holds: no unit
is configured (R40, R46). -/
theorem inv_hostReset_of_valid (hvalid : s.params.valid = true) :
    State.Inv { s.hostReset with trace := [] } :=
  ⟨hvalid, nofun, nofun, nofun, nofun, nofun⟩

/-- An `AINIT` with an oscillator supplied, run from the reset state, leaves the AnalogModulator ready
when the parameter it stores meets R40 (R323). -/
theorem ready_of_ainit {ty : AnalogType} {newK a f : Word}
    (hinbox : s.inbox = .reset :: .command (encode i) :: rest)
    (h : exec i (s.setInbox rest).hostReset =
      .next (afterAinit ty newK a f true (s.setInbox rest).hostReset))
    (hinv : (afterAinit ty newK a f true { (s.setInbox rest).hostReset with trace := [] }).Inv) :
    ∃ t, GoodRun 2 s t ∧ t.am.cfg = true ∧ t.am.oscBound = true ∧ t.am.Inv t.params ∧
      t.trace.getLast? = some (.init .a sine t.am.a t.am.f fZero fZero) ∧ t.inbox = rest :=
  ⟨_, goodRun_reset_command hinbox h, rfl, rfl, hinv.analog, List.getLast?_concat, rfl⟩

/-- The same for a `BINIT` and the BinaryModulator (R323). -/
theorem ready_of_binit {ty : BinaryType} {newK newS a f : Word}
    (hinbox : s.inbox = .reset :: .command (encode i) :: rest)
    (h : exec i (s.setInbox rest).hostReset =
      .next (afterBinit ty newK newS a f true (s.setInbox rest).hostReset))
    (hinv : (afterBinit ty newK newS a f true { (s.setInbox rest).hostReset with trace := [] }).Inv) :
    ∃ t, GoodRun 2 s t ∧ t.bm.cfg = true ∧ t.bm.oscBound = true ∧ t.bm.Inv t.params ∧
      t.trace.getLast? = some (.init .b sine t.bm.a t.bm.f fZero fZero) ∧ t.inbox = rest :=
  ⟨_, goodRun_reset_command hinbox h, rfl, rfl, hinv.binary, List.getLast?_concat, rfl⟩

end

/-- Settles O55: each INIT keeps the invariant of a machine just reset. -/
theorem bringUpReachesReadyState : Obligations.BringUpReachesReadyState := by
  intro i a f k s rest hvalid ha hf hk hinbox
  have hreset := inv_hostReset_of_valid (s := s.setInbox rest) hvalid
  constructor
  · rintro (rfl | rfl | rfl)
    · exact ready_of_ainit hinbox (exec_eq_next.2 ⟨⟨ha, hf, hk⟩, rfl⟩) (afterAinitAm_inv hreset hk)
    · exact ready_of_ainit hinbox (exec_eq_next.2 ⟨⟨ha, hf, hk⟩, rfl⟩) (afterAinitFm_inv hreset)
    · exact ready_of_ainit hinbox (exec_eq_next.2 ⟨⟨ha, hf, hk⟩, rfl⟩) (afterAinitPm_inv hreset)
  · rintro (rfl | rfl | rfl)
    · exact ready_of_binit hinbox (exec_eq_next.2 ⟨⟨ha, hf, hk⟩, rfl⟩) (afterBinitAsk_inv hreset)
    · exact ready_of_binit hinbox (exec_eq_next.2 ⟨⟨ha, hf, hk⟩, rfl⟩) (afterBinitFsk_inv hreset)
    · exact ready_of_binit hinbox (exec_eq_next.2 ⟨⟨ha, hf, hk⟩, rfl⟩) (afterBinitPsk_inv hreset hk)

end Sys2Proof.Machine
end
